-- ==== Sys2Proof/Word.lean ====
section
/-!
DEFINITION. The words of the machine: a byte is what a general register or a memory cell holds
(00_scope.md R6, XLEN), a word is what `pc`, `I`, `IR` and a stack entry hold, a nibble is a 4-bit slice
of an opcode (00_scope.md R7, R8).
-/

namespace Sys2Proof

/-- Eight bits: a general register, a memory cell, the delay timer. -/
abbrev Byte := BitVec 8

/-- Sixteen bits: an instruction word, `pc`, `I`, `IR`, a stack entry. -/
abbrev Word := BitVec 16

/-- Four bits: a register index, an operation selector, a row count. -/
abbrev Nibble := BitVec 4

/-- Twelve bits: the `nnn` field of an instruction. -/
abbrev Addr12 := BitVec 12

end Sys2Proof
end

