-- ==== Sys2Proof/Syntax.lean ====
section
/-!
DEFINITION. The instructions: one constructor per row of spec/opcode_table.json (30_encoding.md R75 to
R77). Fields the hardware does not read (`low`, `ignored`, the `y` of the shifts) are kept, so that an
instruction holds every bit of its word.
-/

namespace Sys2Proof

/-- An instruction, with the fields of its word (30_encoding.md R71, R72). -/
inductive Instr where
  /-- 00E0 CLS (R90). -/
  | cls
  /-- 00EE RET (R91). -/
  | ret
  /-- 0nnn SYS nnn, the ignored native-call form (R92). -/
  | sys (nnn : Addr12)
  /-- 1nnn JP nnn (R100). -/
  | jp (nnn : Addr12)
  /-- 2nnn CALL nnn (R101). -/
  | call (nnn : Addr12)
  /-- 3xkk SE Vx, kk (R102). -/
  | seImm (x : Nibble) (kk : Byte)
  /-- 4xkk SNE Vx, kk (R103). -/
  | sneImm (x : Nibble) (kk : Byte)
  /-- 5xy0 SE Vx, Vy; the low nibble is not decoded (R104, R78). -/
  | seReg (x y low : Nibble)
  /-- 6xkk LD Vx, kk (R110). -/
  | ldImm (x : Nibble) (kk : Byte)
  /-- 7xkk ADD Vx, kk (R111). -/
  | addImm (x : Nibble) (kk : Byte)
  /-- 8xy0 LD Vx, Vy (R121). -/
  | ldReg (x y : Nibble)
  /-- 8xy1 OR Vx, Vy (R122). -/
  | orReg (x y : Nibble)
  /-- 8xy2 AND Vx, Vy (R123). -/
  | andReg (x y : Nibble)
  /-- 8xy3 XOR Vx, Vy (R124). -/
  | xorReg (x y : Nibble)
  /-- 8xy4 ADD Vx, Vy (R125). -/
  | addReg (x y : Nibble)
  /-- 8xy5 SUB Vx, Vy (R126). -/
  | subReg (x y : Nibble)
  /-- 8xy6 SHR Vx; `y` is in the word and not used (R127). -/
  | shrReg (x y : Nibble)
  /-- 8xy7 SUBN Vx, Vy (R128). -/
  | subnReg (x y : Nibble)
  /-- 8xyE SHL Vx; `y` is in the word and not used (R129). -/
  | shlReg (x y : Nibble)
  /-- 8xy8, unassigned ALU selector (R160). -/
  | alu8 (ignored : Byte)
  /-- 8xy9, unassigned ALU selector (R160). -/
  | alu9 (ignored : Byte)
  /-- 8xyA, unassigned ALU selector (R160). -/
  | aluA (ignored : Byte)
  /-- 8xyB, unassigned ALU selector (R160). -/
  | aluB (ignored : Byte)
  /-- 8xyC, unassigned ALU selector (R160). -/
  | aluC (ignored : Byte)
  /-- 8xyD, unassigned ALU selector (R160). -/
  | aluD (ignored : Byte)
  /-- 8xyF, unassigned ALU selector (R160). -/
  | aluF (ignored : Byte)
  /-- 9xy0 SNE Vx, Vy; the low nibble is not decoded (R105, R78). -/
  | sneReg (x y low : Nibble)
  /-- Annn LD I, nnn (R112). -/
  | ldI (nnn : Addr12)
  /-- Bnnn, unassigned family B (R161). -/
  | famB (ignored : Addr12)
  /-- Cxkk, unassigned family C (R162). -/
  | famC (ignored : Addr12)
  /-- Dxyn DRW Vx, Vy, n (R141). -/
  | drw (x y n : Nibble)
  /-- Exkk, unassigned family E (R163). -/
  | famE (ignored : Addr12)
  /-- Fxkk, unassigned family F (R164). -/
  | famF (ignored : Addr12)
deriving DecidableEq, Repr

end Sys2Proof
end

