-- ==== Sys2Proof/WellFormed.lean ====
section
/-!
DEFINITION. Which terms of `Instr` are instructions of the machine. Every field has the width of its
place in the word, so the one thing to check is that SYS does not take the two full words of family 0
that the decoder gives to CLS and RET first (30_encoding.md R74, 40_fullword.md R92).
-/

namespace Sys2Proof

/-- SYS is every 0nnn other than 0x00E0 (CLS) and 0x00EE (RET); every other term is well formed. -/
def Instr.wf : Instr → Bool
  | .cls => true
  | .ret => true
  | .sys nnn => nnn != 0x0E0#12 && nnn != 0x0EE#12
  | .jp _ => true
  | .call _ => true
  | .seImm _ _ => true
  | .sneImm _ _ => true
  | .seReg _ _ _ => true
  | .ldImm _ _ => true
  | .addImm _ _ => true
  | .ldReg _ _ => true
  | .orReg _ _ => true
  | .andReg _ _ => true
  | .xorReg _ _ => true
  | .addReg _ _ => true
  | .subReg _ _ => true
  | .shrReg _ _ => true
  | .subnReg _ _ => true
  | .shlReg _ _ => true
  | .alu8 _ => true
  | .alu9 _ => true
  | .aluA _ => true
  | .aluB _ => true
  | .aluC _ => true
  | .aluD _ => true
  | .aluF _ => true
  | .sneReg _ _ _ => true
  | .ldI _ => true
  | .famB _ => true
  | .famC _ => true
  | .drw _ _ _ => true
  | .famE _ => true
  | .famF _ => true

end Sys2Proof
end

