-- ==== Sys2Proof/Decode.lean ====
section
/-!
DEFINITION. The decoder, the encoder and the opcode table, from 30_encoding.md. Decoding a word is total:
every one of the 65536 words is some instruction (R74, R77). Decoding bytes rejects, by name, only a list
too short to hold a word.
-/

namespace Sys2Proof

/-! ## Fields (R71) -/

/-- `fam` = op[15:12], the family selector. -/
def famOf (op : Word) : Nibble := op.extractLsb' 12 4

/-- `x` = op[11:8]. -/
def xOf (op : Word) : Nibble := op.extractLsb' 8 4

/-- `y` = op[7:4]. -/
def yOf (op : Word) : Nibble := op.extractLsb' 4 4

/-- `n` = op[3:0]. -/
def nOf (op : Word) : Nibble := op.extractLsb' 0 4

/-- `kk` = op[7:0]. -/
def kkOf (op : Word) : Byte := op.extractLsb' 0 8

/-- `nnn` = op[11:0]. -/
def nnnOf (op : Word) : Addr12 := op.extractLsb' 0 12

/-- op[11:4], the bits an unassigned ALU word does not use (45_unassigned.md R160). -/
def xyOf (op : Word) : Byte := op.extractLsb' 4 8

/-! ## Decoding (R74) -/

/-- Family 8, by the low nibble (R74 step 4, R76, R160). -/
def decodeAlu (op : Word) : Instr :=
  match (nOf op).toNat with
  | 0x0 => .ldReg (xOf op) (yOf op)
  | 0x1 => .orReg (xOf op) (yOf op)
  | 0x2 => .andReg (xOf op) (yOf op)
  | 0x3 => .xorReg (xOf op) (yOf op)
  | 0x4 => .addReg (xOf op) (yOf op)
  | 0x5 => .subReg (xOf op) (yOf op)
  | 0x6 => .shrReg (xOf op) (yOf op)
  | 0x7 => .subnReg (xOf op) (yOf op)
  | 0x8 => .alu8 (xyOf op)
  | 0x9 => .alu9 (xyOf op)
  | 0xA => .aluA (xyOf op)
  | 0xB => .aluB (xyOf op)
  | 0xC => .aluC (xyOf op)
  | 0xD => .aluD (xyOf op)
  | 0xE => .shlReg (xOf op) (yOf op)
  | _ => .aluF (xyOf op)

/-- By the top nibble (R74 step 3); the last arm is family 0xF, the only value left. -/
def decodeFamily (op : Word) : Instr :=
  match (famOf op).toNat with
  | 0x0 => .sys (nnnOf op)
  | 0x1 => .jp (nnnOf op)
  | 0x2 => .call (nnnOf op)
  | 0x3 => .seImm (xOf op) (kkOf op)
  | 0x4 => .sneImm (xOf op) (kkOf op)
  | 0x5 => .seReg (xOf op) (yOf op) (nOf op)
  | 0x6 => .ldImm (xOf op) (kkOf op)
  | 0x7 => .addImm (xOf op) (kkOf op)
  | 0x8 => decodeAlu op
  | 0x9 => .sneReg (xOf op) (yOf op) (nOf op)
  | 0xA => .ldI (nnnOf op)
  | 0xB => .famB (nnnOf op)
  | 0xC => .famC (nnnOf op)
  | 0xD => .drw (xOf op) (yOf op) (nOf op)
  | 0xE => .famE (nnnOf op)
  | _ => .famF (nnnOf op)

/-- The instruction a word is: the two full words first, then the family (R74). -/
def decode (op : Word) : Instr :=
  if op = 0x00E0#16 then .cls
  else if op = 0x00EE#16 then .ret
  else decodeFamily op

/-- The 16-bit word of two bytes of memory: the byte at the lower address is the more significant
(20_memory.md R52). -/
def wordOfBytes (hi lo : Byte) : Word := hi ++ lo

/-- Why a list of bytes is no instruction. -/
inductive DecodeError where
  /-- Fewer than the two bytes every instruction has (R70). -/
  | truncated
deriving DecidableEq, Repr

/-- The instruction at the head of a list of bytes, and the bytes after it. -/
def decodeBytes : List Byte → Except DecodeError (Instr × List Byte)
  | hi :: lo :: rest => .ok (decode (wordOfBytes hi lo), rest)
  | [_] => .error .truncated
  | [] => .error .truncated

/-! ## Encoding (R72, R75, R76, R77) -/

/-- Format NNN. -/
def encNNN (fam : Nibble) (nnn : Addr12) : Word := fam ++ nnn

/-- Format XKK. -/
def encXKK (fam x : Nibble) (kk : Byte) : Word := (fam ++ x : Byte) ++ kk

/-- Formats XY and XYN. -/
def encXYN (fam x y n : Nibble) : Word := (fam ++ x : Byte) ++ (y ++ n : Byte)

/-- An unassigned ALU word: family 8, eight bits not used, the selector. -/
def encAlu (xy : Byte) (n : Nibble) : Word := (0x8#4 ++ xy : Addr12) ++ n

/-- The word of an instruction. -/
def encode : Instr → Word
  | .cls => 0x00E0#16
  | .ret => 0x00EE#16
  | .sys nnn => encNNN 0x0#4 nnn
  | .jp nnn => encNNN 0x1#4 nnn
  | .call nnn => encNNN 0x2#4 nnn
  | .seImm x kk => encXKK 0x3#4 x kk
  | .sneImm x kk => encXKK 0x4#4 x kk
  | .seReg x y low => encXYN 0x5#4 x y low
  | .ldImm x kk => encXKK 0x6#4 x kk
  | .addImm x kk => encXKK 0x7#4 x kk
  | .ldReg x y => encXYN 0x8#4 x y 0x0#4
  | .orReg x y => encXYN 0x8#4 x y 0x1#4
  | .andReg x y => encXYN 0x8#4 x y 0x2#4
  | .xorReg x y => encXYN 0x8#4 x y 0x3#4
  | .addReg x y => encXYN 0x8#4 x y 0x4#4
  | .subReg x y => encXYN 0x8#4 x y 0x5#4
  | .shrReg x y => encXYN 0x8#4 x y 0x6#4
  | .subnReg x y => encXYN 0x8#4 x y 0x7#4
  | .alu8 xy => encAlu xy 0x8#4
  | .alu9 xy => encAlu xy 0x9#4
  | .aluA xy => encAlu xy 0xA#4
  | .aluB xy => encAlu xy 0xB#4
  | .aluC xy => encAlu xy 0xC#4
  | .aluD xy => encAlu xy 0xD#4
  | .shlReg x y => encXYN 0x8#4 x y 0xE#4
  | .aluF xy => encAlu xy 0xF#4
  | .sneReg x y low => encXYN 0x9#4 x y low
  | .ldI nnn => encNNN 0xA#4 nnn
  | .famB nnn => encNNN 0xB#4 nnn
  | .famC nnn => encNNN 0xC#4 nnn
  | .drw x y n => encXYN 0xD#4 x y n
  | .famE nnn => encNNN 0xE#4 nnn
  | .famF nnn => encNNN 0xF#4 nnn

/-- The high byte of a word, the one at the lower address. -/
def hiByte (op : Word) : Byte := op.extractLsb' 8 8

/-- The low byte of a word, the one at the higher address. -/
def loByte (op : Word) : Byte := op.extractLsb' 0 8

/-- The two bytes of an instruction as memory holds them (R70). -/
def encodeBytes (i : Instr) : List Byte := [hiByte (encode i), loByte (encode i)]

/-! ## The opcode table (spec/opcode_table.json, in its order of priority) -/

/-- A row of the opcode table: it applies to the words `op` with `op &&& mask = value`. -/
structure Row where
  form  : String
  mask  : Word
  value : Word
deriving DecidableEq, Repr

/-- The 33 rows, in decode priority order. -/
def opcodeRows : List Row :=
  [⟨"00E0", 0xFFFF#16, 0x00E0#16⟩, ⟨"00EE", 0xFFFF#16, 0x00EE#16⟩, ⟨"0nnn", 0xF000#16, 0x0000#16⟩,
   ⟨"1nnn", 0xF000#16, 0x1000#16⟩, ⟨"2nnn", 0xF000#16, 0x2000#16⟩, ⟨"3xkk", 0xF000#16, 0x3000#16⟩,
   ⟨"4xkk", 0xF000#16, 0x4000#16⟩, ⟨"5xy0", 0xF000#16, 0x5000#16⟩, ⟨"6xkk", 0xF000#16, 0x6000#16⟩,
   ⟨"7xkk", 0xF000#16, 0x7000#16⟩, ⟨"8xy0", 0xF00F#16, 0x8000#16⟩, ⟨"8xy1", 0xF00F#16, 0x8001#16⟩,
   ⟨"8xy2", 0xF00F#16, 0x8002#16⟩, ⟨"8xy3", 0xF00F#16, 0x8003#16⟩, ⟨"8xy4", 0xF00F#16, 0x8004#16⟩,
   ⟨"8xy5", 0xF00F#16, 0x8005#16⟩, ⟨"8xy6", 0xF00F#16, 0x8006#16⟩, ⟨"8xy7", 0xF00F#16, 0x8007#16⟩,
   ⟨"8xyE", 0xF00F#16, 0x800E#16⟩, ⟨"8xy8", 0xF00F#16, 0x8008#16⟩, ⟨"8xy9", 0xF00F#16, 0x8009#16⟩,
   ⟨"8xyA", 0xF00F#16, 0x800A#16⟩, ⟨"8xyB", 0xF00F#16, 0x800B#16⟩, ⟨"8xyC", 0xF00F#16, 0x800C#16⟩,
   ⟨"8xyD", 0xF00F#16, 0x800D#16⟩, ⟨"8xyF", 0xF00F#16, 0x800F#16⟩, ⟨"9xy0", 0xF000#16, 0x9000#16⟩,
   ⟨"Annn", 0xF000#16, 0xA000#16⟩, ⟨"Bnnn", 0xF000#16, 0xB000#16⟩, ⟨"Cxkk", 0xF000#16, 0xC000#16⟩,
   ⟨"Dxyn", 0xF000#16, 0xD000#16⟩, ⟨"Exkk", 0xF000#16, 0xE000#16⟩, ⟨"Fxkk", 0xF000#16, 0xF000#16⟩]

/-- Whether a row applies to a word. -/
def Row.applies (r : Row) (op : Word) : Bool := op &&& r.mask == r.value

/-- The table's pattern of an instruction's row. -/
def formOf : Instr → String
  | .cls => "00E0"
  | .ret => "00EE"
  | .sys _ => "0nnn"
  | .jp _ => "1nnn"
  | .call _ => "2nnn"
  | .seImm _ _ => "3xkk"
  | .sneImm _ _ => "4xkk"
  | .seReg _ _ _ => "5xy0"
  | .ldImm _ _ => "6xkk"
  | .addImm _ _ => "7xkk"
  | .ldReg _ _ => "8xy0"
  | .orReg _ _ => "8xy1"
  | .andReg _ _ => "8xy2"
  | .xorReg _ _ => "8xy3"
  | .addReg _ _ => "8xy4"
  | .subReg _ _ => "8xy5"
  | .shrReg _ _ => "8xy6"
  | .subnReg _ _ => "8xy7"
  | .shlReg _ _ => "8xyE"
  | .alu8 _ => "8xy8"
  | .alu9 _ => "8xy9"
  | .aluA _ => "8xyA"
  | .aluB _ => "8xyB"
  | .aluC _ => "8xyC"
  | .aluD _ => "8xyD"
  | .aluF _ => "8xyF"
  | .sneReg _ _ _ => "9xy0"
  | .ldI _ => "Annn"
  | .famB _ => "Bnnn"
  | .famC _ => "Cxkk"
  | .drw _ _ _ => "Dxyn"
  | .famE _ => "Exkk"
  | .famF _ => "Fxkk"

/-! ## The host's question about one word -/

/-- What the decoder reads from an instruction whose bits, numbered as spec/opcode_table.json numbers
them, are `w`: the word is laid out as the hardware stores it, high byte first, and decoded. Bits at and
above `nbits` are 0. -/
def decodeTableWord (nbits w : Nat) : Option Instr :=
  match decodeBytes [hiByte (BitVec.ofNat 16 (w % 2 ^ nbits)), loByte (BitVec.ofNat 16 (w % 2 ^ nbits))] with
  | .ok (i, _) => some i
  | .error _ => none

end Sys2Proof
end

