-- ==== Sys2Proof/Config.lean ====
section
/-!
DEFINITION. The numbers the hardware fixes and the default of its one parameter, STACK_DEPTH (00_scope.md R6).
The spec leaves no result open, so there is no free value here.
-/

namespace Sys2Proof.Config

/-- MEM_SIZE: the number of byte cells of memory (00_scope.md R6). -/
abbrev memSize : Nat := 4096

/-- PROG_BASE: where LOAD copies the image and where execution starts (00_scope.md R6). -/
abbrev progBase : Nat := 0x200

/-- PROG_MAX: the greatest length of a program image in bytes (00_scope.md R6, D15). -/
abbrev progMax : Nat := memSize - progBase

/-- The default of STACK_DEPTH, the greatest number of entries of the call stack, `none` standing for
"unbounded" (00_scope.md R6, D2). The machine runs with any depth: `State.depth` holds the one a core is
built with (log 1). -/
def defaultStackDepth : Option Nat := some 16

end Sys2Proof.Config
end

