-- ==== Sys2Proof/Machine/State.lean ====
section
/-!
DEFINITION. The state of the core: the twelve elements of 10_state.md R20 and, beside them, the parameter
STACK_DEPTH the core is built with; the faults its latch can hold, the operations the host may be refused,
and the state right after reset (R35).
-/

namespace Sys2Proof.Machine

/-- The fatal errors of the core, 60_exceptions.md R200. A fault of this hardware is a STATE: the
operation that meets it answers a next state whose latch `State.fault` holds the fault, and the core is
then halted (R208, 50_cycle_and_host.md R183). No operation answers the outcome `fault` (log 2). -/
inductive Fault where
  /-- Code 1. Raised by RET when the call stack is empty (R203). Safe: the spec's own halt. -/
  | stackUnderflow
  /-- Code 2. Raised by FETCH when `pc` > 4094 (R201). Safe: the spec's own halt. -/
  | fetchRange
  /-- Code 3. Raised by DRW when n > 0 and I + n - 1 > 4095 (R202). Safe: the spec's own halt. -/
  | indexRange
  /-- Code 4. Raised by CALL when the call stack is full (R204). Safe: the spec's own halt. -/
  | stackOverflow
deriving DecidableEq, Repr

/-- Why the model gives an operation no result. No instruction is refused; each of the last four is the
refusal of a HOST operation that the spec itself refuses. -/
inductive Refusal where
  /-- An instruction without a meaning yet. Raised by no arm of `exec`: every instruction has its
  meaning. Safe. -/
  | notModelled (mnemonic : String)
  /-- LOAD of an image longer than 3584 bytes (50_cycle_and_host.md R175, D15). Raised by the host
  operation LOAD. Safe: the spec refuses it. -/
  | imageTooLong
  /-- READ_PIXEL outside the 64 by 32 grid (R177, D22). Raised by the host operation READ_PIXEL. Safe:
  the spec refuses it. -/
  | pixelOutsideGrid
  /-- POKE of an address over 4095 (R180). Raised by the host operation POKE. Safe: the spec refuses
  it. -/
  | pokeOutsideMemory
  /-- POKE of a value over 255 (R180). Raised by the host operation POKE. Safe: the spec refuses it. -/
  | pokeNotAByte
deriving DecidableEq, Repr

/-- Memory: (address, byte) pairs, addresses strictly rising, no entry equal to 0, which is what an
unlisted address reads as (log 3). -/
abbrev Memory := List Host.Cell

/-- The sixteen general registers, V0 to VF (10_state.md R22). -/
abbrev RegFile := Vector Byte 16

/-- The framebuffer: 32 rows of 64 one-bit pixels (10_state.md R28, log 6). -/
abbrev Framebuffer := Vector (Vector Bool 64) 32

/-- The framebuffer with every pixel 0. -/
def Framebuffer.blank : Framebuffer := Vector.replicate 32 (Vector.replicate 64 false)

/-- The whole state of the core, 10_state.md R20, and the parameter it is built with. -/
structure State where
  /-- `MEM` (R21). -/
  mem   : Memory
  /-- `V[0]` to `V[15]`; `V[15]` is VF (R22, R23). -/
  v     : RegFile
  /-- `I`, the index register (R24). -/
  i     : Word
  /-- `pc` (R25). -/
  pc    : Word
  /-- `STACK`: its cells from index 0; a cell not listed holds 0 (R26, log 5). -/
  stack : List Word
  /-- `SP`: the number of live stack entries (R26). -/
  sp    : Nat
  /-- `IR`, the opcode latch (R27). -/
  ir    : Word
  /-- `FB` (R28). -/
  fb    : Framebuffer
  /-- `DIRTY` (R29). -/
  dirty : Bool
  /-- `DT`, the delay timer (R30). -/
  dt    : Byte
  /-- `DIV`, its prescaler (R31). -/
  div   : Nibble
  /-- `FAULT`: `none` is code 0, not halted (R32). -/
  fault : Option Fault
  /-- STACK_DEPTH, `none` for "unbounded": the model's own field, for a parameter of the core that the spec
  does not count as state (00_scope.md R6, 10_state.md R34, D2; log 1). Nothing writes it. -/
  depth : Option Nat
deriving DecidableEq, Repr

/-- The state after LOAD of the empty image of a core with the given STACK_DEPTH: every element at the value
of 10_state.md R35. The stack's cells are listed where there are STACK_DEPTH of them (log 5). -/
def State.resetAt (depth : Option Nat) : State where
  mem   := []
  v     := Vector.replicate 16 0
  i     := 0
  pc    := BitVec.ofNat 16 Config.progBase
  stack := List.replicate (depth.getD 0) 0
  sp    := 0
  ir    := 0
  fb    := Framebuffer.blank
  dirty := false
  dt    := 0
  div   := 0
  fault := none
  depth := depth

/-- The state right after reset, with the default STACK_DEPTH. -/
def State.reset : State := State.resetAt Config.defaultStackDepth

end Sys2Proof.Machine
end

