-- ==== Sys2Proof/Machine/Ops.lean ====
section
/-!
DEFINITION. The named operations over the state: memory bytes, general registers, call-stack cells, the
timer step, FETCH, and raising a fault, which is this hardware's one form of taking an exception
(60_exceptions.md R208).
-/

namespace Sys2Proof.Machine

/-- What an operation of the core answers. -/
abbrev Result := Host.Outcome State Fault Refusal

/-! ## Memory (20_memory.md) -/

/-- The byte at an address; an address not listed reads 0 (log 3). MemRead(addr, 1) of 00_scope.md R12:
each caller checks first that the address is at most 4095. -/
def readByte : Memory → Nat → Byte
  | [], _ => 0
  | (a, b) :: m, k => if k = a then b else readByte m k

/-- The big-endian word at an address: MemRead(addr, 2) of 00_scope.md R12 and 20_memory.md R52. -/
def readWord (m : Memory) (a : Nat) : Word := wordOfBytes (readByte m a) (readByte m (a + 1))

/-- Insert a cell where its address belongs. -/
def insertCell (k : Nat) (b : Byte) : Memory → Memory
  | [] => [(k, b)]
  | (a, c) :: m => if k < a then (k, b) :: (a, c) :: m else (a, c) :: insertCell k b m

/-- Remove every cell of an address. -/
def eraseCell (k : Nat) (m : Memory) : Memory := m.filter fun c => c.1 != k

/-- MemWrite(addr, 1, v) of 00_scope.md R12. Writing 0 removes the cell, so that the list keeps its one
canonical form. Its callers are the host's LOAD and POKE and no instruction (20_memory.md R54). -/
def writeByte (m : Memory) (k : Nat) (b : Byte) : Memory :=
  if b = 0 then eraseCell k m else insertCell k b (eraseCell k m)

/-- Write bytes upward from an address (the image copy of R175). -/
def writeBytes : Memory → Nat → List Byte → Memory
  | m, _, [] => m
  | m, a, b :: bs => writeBytes (writeByte m a b) (a + 1) bs

/-- The canonical form from an address up: addresses strictly rising and inside MEM, no byte 0. -/
def wfFrom : Nat → Memory → Bool
  | _, [] => true
  | lo, (a, b) :: m => decide (lo ≤ a) && decide (a < Config.memSize) && b != 0 && wfFrom (a + 1) m

/-- The canonical form of memory. -/
def Memory.wf (m : Memory) : Bool := wfFrom 0 m

/-! ## General registers (10_state.md R22, 00_scope.md R11) -/

/-- `V[x]`. -/
def readV (s : State) (x : Nibble) : Byte := s.v[x.toNat]'(x.isLt)

/-- `V[x] <- b`. No register is hard-wired. -/
def writeV (s : State) (x : Nibble) (b : Byte) : State := { s with v := s.v.set x.toNat b x.isLt }

/-- The index of VF, the flag register (10_state.md R23). -/
def vf : Nibble := 0xF#4

/-! ## The call stack (10_state.md R26) -/

/-- `STACK[k]`; a cell not listed holds 0 (log 5). -/
def readCell (cells : List Word) (k : Nat) : Word := cells.getD k 0

/-- `STACK[k] <- w`. -/
def writeCell (cells : List Word) (k : Nat) (w : Word) : List Word :=
  if k < cells.length then cells.set k w
  else cells ++ List.replicate (k - cells.length) 0 ++ [w]

/-- The call stack is full: `SP` = STACK_DEPTH, which an unbounded stack never meets (R26, D2). -/
def stackFull (s : State) : Bool := s.depth == some s.sp

/-- `STACK[SP] <- w; SP <- SP + 1`. -/
def push (s : State) (w : Word) : State :=
  { s with stack := writeCell s.stack s.sp w, sp := s.sp + 1 }

/-- `SP <- SP - 1; pc <- STACK[SP]`; the vacated cell keeps its content (40_fullword.md R91). -/
def popPc (s : State) : State :=
  { s with sp := s.sp - 1, pc := readCell s.stack (s.sp - 1) }

/-! ## Taking a fault (60_exceptions.md R208) -/

/-- `raise` of 00_scope.md R14: the whole effect is `FAULT <- code`. It saves nothing and transfers
control nowhere; the state it is given is the one the operation started from. There is no return from a
fault but LOAD (R209). -/
def raise (f : Fault) (s : State) : Result := .next { s with fault := some f }

/-- Whether the core is halted: `FAULT` is not 0 (50_cycle_and_host.md R183). -/
def halted (s : State) : Bool := s.fault.isSome

/-- The code READ_FAULT gives (60_exceptions.md R200, D24). -/
def faultCode : Option Fault → BitVec 3
  | none => 0
  | some .stackUnderflow => 1
  | some .fetchRange => 2
  | some .indexRange => 3
  | some .stackOverflow => 4

/-! ## The timer (60_exceptions.md R213) -/

/-- `TimerStep()`: `DIV` counts to 15 and round, and each time round `DT` loses 1 unless it is 0. -/
def timerStep (s : State) : State :=
  if s.div = 15 then { s with div := 0, dt := if s.dt = 0 then s.dt else s.dt - 1 }
  else { s with div := s.div + 1 }

/-! ## The program counter -/

/-- `pc <- pc + 2`, mod 65536 (10_state.md R25, D18). -/
def advancePc (s : State) : State := { s with pc := s.pc + 2 }

/-- `zext_16(nnn)` (30_encoding.md R73, 00_scope.md R13). -/
def zextAddr (nnn : Addr12) : Word := nnn.setWidth 16

/-- `pc <- zext_16(nnn)` (00_scope.md R14). -/
def jumpTo (nnn : Addr12) (s : State) : State := { s with pc := zextAddr nnn }

/-! ## FETCH (50_cycle_and_host.md R171) -/

/-- The effect of a FETCH that does not fault: the opcode latch takes the word at `pc`, then `pc` moves
on by 2. -/
def latchOpcode (s : State) : State :=
  advancePc { s with ir := readWord s.mem s.pc.toNat }

/-- Whether both bytes of the word at `pc` are in memory: not `pc` > 4094. -/
def canFetch (s : State) : Bool := decide (s.pc.toNat + 1 < Config.memSize)

/-- FETCH: nothing when halted; FetchRange when the word is not inside memory; else the opcode is
latched. -/
def fetch (s : State) : Result :=
  if halted s then .next s
  else if canFetch s then .next (latchOpcode s)
  else raise .fetchRange s

/-! ## Placing a word where the next fetch reads it -/

/-- The state with a word's two bytes stored at `pc` and `pc + 1`; unchanged where FETCH could not read
them (log 7). -/
def placeWord (s : State) (op : Word) : State :=
  if canFetch s then
    { s with mem := writeByte (writeByte s.mem s.pc.toNat (hiByte op)) (s.pc.toNat + 1) (loByte op) }
  else s

end Sys2Proof.Machine
end

