-- ==== Sys2Proof/Machine/Flags.lean ====
section
/-!
DEFINITION. The six flags an instruction can leave in VF, each the whole-register value 0 or 1
(10_state.md R23). The collision flag of DRW is computed with the pixels it toggles (Machine/Framebuffer).
-/

namespace Sys2Proof.Machine

/-- A flag as VF holds it. -/
def flagByte (c : Bool) : Byte := if c then 1 else 0

/-- 8xy4: 1 when the sum, not reduced, exceeds 255 (43_alu.md R125). -/
def carryFlag (a b : Byte) : Byte := flagByte (decide (a.toNat + b.toNat > 255))

/-- 8xy5 with (a, b), 8xy7 with (b, a): 1 when the first is strictly greater (R126, R128). -/
def greaterFlag (a b : Byte) : Byte := flagByte (decide (a.toNat > b.toNat))

/-- 8xy6: bit 0 of the operand before the shift (R127). -/
def lowBitFlag (a : Byte) : Byte := flagByte (a.getLsbD 0)

/-- 8xyE: bit 7 of the operand before the shift (R129). -/
def highBitFlag (a : Byte) : Byte := flagByte (a.getLsbD 7)

end Sys2Proof.Machine
end

