-- ==== Sys2Proof/Machine/Alu.lean ====
section
/-!
DEFINITION. The ALU family 8xy? (43_alu.md). Operands are read before any write (R120, D10): every meaning
passes the values of the registers as they are in the state it starts from.
-/

namespace Sys2Proof.Machine

/-- The result first and the flag second (8xy4): with x = 15 the flag stays (R120). -/
def resultThenFlag (x : Nibble) (r flag : Byte) (s : State) : State := writeV (writeV s x r) vf flag

/-- The flag first and the result second (8xy5, 8xy6, 8xy7, 8xyE): with x = 15 the result stays
(R120). -/
def flagThenResult (x : Nibble) (flag r : Byte) (s : State) : State := writeV (writeV s vf flag) x r

/-- LD Vx, Vy (R121). -/
def execLdReg (x y : Nibble) (s : State) : Result := .next (writeV s x (readV s y))

/-- OR Vx, Vy (R122). -/
def execOrReg (x y : Nibble) (s : State) : Result := .next (writeV s x (readV s x ||| readV s y))

/-- AND Vx, Vy (R123). -/
def execAndReg (x y : Nibble) (s : State) : Result := .next (writeV s x (readV s x &&& readV s y))

/-- XOR Vx, Vy (R124). -/
def execXorReg (x y : Nibble) (s : State) : Result := .next (writeV s x (readV s x ^^^ readV s y))

/-- ADD Vx, Vy (R125): the sum mod 256, then the carry. -/
def execAddReg (x y : Nibble) (s : State) : Result :=
  .next (resultThenFlag x (readV s x + readV s y) (carryFlag (readV s x) (readV s y)) s)

/-- SUB Vx, Vy (R126): the strict comparison, then the difference mod 256. -/
def execSubReg (x y : Nibble) (s : State) : Result :=
  .next (flagThenResult x (greaterFlag (readV s x) (readV s y)) (readV s x - readV s y) s)

/-- SHR Vx (R127): bit 0, then the logical shift; Vy is neither read nor written. -/
def execShrReg (x _y : Nibble) (s : State) : Result :=
  .next (flagThenResult x (lowBitFlag (readV s x)) (readV s x >>> 1) s)

/-- SUBN Vx, Vy (R128): the strict comparison, then the reverse difference mod 256. -/
def execSubnReg (x y : Nibble) (s : State) : Result :=
  .next (flagThenResult x (greaterFlag (readV s y) (readV s x)) (readV s y - readV s x) s)

/-- SHL Vx (R129): bit 7, then the shift mod 256; Vy is neither read nor written. -/
def execShlReg (x _y : Nibble) (s : State) : Result :=
  .next (flagThenResult x (highBitFlag (readV s x)) (readV s x <<< 1) s)

end Sys2Proof.Machine
end

