-- ==== Sys2Proof/Machine/Operands.lean ====
section
/-!
DEFINITION. The one operand form that is more than a register or an immediate (30_encoding.md R73; `readV`,
`zextAddr` in Machine/Ops): the sprite a DRW reads through `I` (44_draw.md R141, R146, R147).
-/

namespace Sys2Proof.Machine

/-- A pixel's place: column 0 to 63, row 0 to 31 (10_state.md R28). -/
abbrev Pixel := Fin 64 × Fin 32

/-- The pixel of sprite column `col` and sprite row `row` of a sprite drawn at the register values `a`
and `b`: wrapped per pixel (44_draw.md R146, D3). -/
def pixelAt (a b : Byte) (col row : Nat) : Pixel :=
  (Fin.ofNat 64 (a.toNat + col), Fin.ofNat 32 (b.toNat + row))

/-- Whether a sprite byte's bit for a column is set: bit 7 is column 0 (44_draw.md R147, D4). -/
def spriteBit (bits : Byte) (col : Nat) : Bool := bits.getLsbD (7 - col)

/-- The pixels under the set bits of one sprite row, left to right. -/
def rowPixels (a b bits : Byte) (row : Nat) : List Pixel :=
  (List.range 8).filterMap fun col => if spriteBit bits col then some (pixelAt a b col row) else none

/-- The pixels under the set bits of the sprite of `n` rows at address `i`, row by row
(44_draw.md R141). -/
def spritePixels (m : Memory) (i : Nat) (a b : Byte) (n : Nat) : List Pixel :=
  (List.range n).flatMap fun row => rowPixels a b (readByte m (i + row)) row

/-- Whether all `n` sprite bytes from `i` are inside memory: `n` = 0 or `i` + `n` - 1 <= 4095
(44_draw.md R141, D8, D12). -/
def spriteInMemory (i : Word) (n : Nibble) : Bool :=
  n.toNat == 0 || decide (i.toNat + n.toNat ≤ Config.memSize)

end Sys2Proof.Machine
end

