-- ==== Sys2Proof/Machine/Control.lean ====
section
/-!
DEFINITION. Control transfer: JP, CALL and the four skips (41_control_transfer.md). `pc` is already the
address of the instruction after the one executed (50_cycle_and_host.md R171).
-/

namespace Sys2Proof.Machine

/-- `if c then pc <- pc + 2` (R102 to R105). -/
def skipIf (c : Bool) (s : State) : Result := .next (if c then advancePc s else s)

/-- JP nnn (R100). -/
def execJp (nnn : Addr12) (s : State) : Result := .next (jumpTo nnn s)

/-- CALL nnn (R101, D2): StackOverflow on a full stack, else the return address is pushed and control goes
to nnn. -/
def execCall (nnn : Addr12) (s : State) : Result :=
  if stackFull s then raise .stackOverflow s else .next (jumpTo nnn (push s s.pc))

/-- SE Vx, kk (R102). -/
def execSeImm (x : Nibble) (kk : Byte) (s : State) : Result := skipIf (readV s x == kk) s

/-- SNE Vx, kk (R103). -/
def execSneImm (x : Nibble) (kk : Byte) (s : State) : Result := skipIf (readV s x != kk) s

/-- SE Vx, Vy (R104); the low nibble is not decoded (R78, D11). -/
def execSeReg (x y _low : Nibble) (s : State) : Result := skipIf (readV s x == readV s y) s

/-- SNE Vx, Vy (R105); the low nibble is not decoded (R78, D11). -/
def execSneReg (x y _low : Nibble) (s : State) : Result := skipIf (readV s x != readV s y) s

end Sys2Proof.Machine
end

