-- ==== Sys2Proof/Machine/Framebuffer.lean ====
section
/-!
DEFINITION. The framebuffer controller: pixel read, XOR-toggle, clear, the dirty flag (44_draw.md R140 to
R145), and the blit that DRW makes of them.
-/

namespace Sys2Proof.Machine

/-- `FbRead(px, py)` (R142). -/
def fbRead (fb : Framebuffer) (p : Pixel) : Bool := (fb[p.2.val]'p.2.isLt)[p.1.val]'p.1.isLt

/-- `FbToggle(px, py)` (R143). -/
def fbToggle (fb : Framebuffer) (p : Pixel) : Framebuffer :=
  fb.set p.2.val ((fb[p.2.val]'p.2.isLt).set p.1.val (!fbRead fb p) p.1.isLt) p.2.isLt

/-- `FbClear()` (R144). -/
def fbClear : Framebuffer := Framebuffer.blank

/-- Toggle pixels one after the other; `hit` becomes true when one was set before its toggle (R141). -/
def toggleAll : List Pixel → Framebuffer → Bool → Framebuffer × Bool
  | [], fb, hit => (fb, hit)
  | p :: ps, fb, hit => toggleAll ps (fbToggle fb p) (hit || fbRead fb p)

/-- The blit of DRW: the framebuffer with the pixels toggled, the collision flag in VF (0 unless some
pixel was set before its toggle), `DIRTY` 1 (R141, R145). -/
def blit (ps : List Pixel) (s : State) : State :=
  { writeV s vf (flagByte (toggleAll ps s.fb false).2) with
    fb := (toggleAll ps s.fb false).1, dirty := true }

end Sys2Proof.Machine
end

