-- ==== Sys2Proof/Machine/Draw.lean ====
section
/-!
DEFINITION. DRW (44_draw.md R141).
-/

namespace Sys2Proof.Machine

/-- DRW Vx, Vy, n (R141): IndexRange, before any effect, when a sprite byte would lie past address 4095;
else the blit of the sprite at I, drawn at the register values read before VF is written. -/
def execDrw (x y n : Nibble) (s : State) : Result :=
  if spriteInMemory s.i n then
    .next (blit (spritePixels s.mem s.i.toNat (readV s x) (readV s y) n.toNat) s)
  else raise .indexRange s

end Sys2Proof.Machine
end

