-- ==== Sys2Proof/Machine/Full.lean ====
section
/-!
DEFINITION. Family 0: CLS, RET and the ignored SYS form (40_fullword.md).
-/

namespace Sys2Proof.Machine

/-- CLS (R90): every pixel 0, `DIRTY` 1, whatever the framebuffer held. -/
def execCls (s : State) : Result := .next { s with fb := fbClear, dirty := true }

/-- RET (R91): StackUnderflow on an empty stack, else `pc` from the newest entry. -/
def execRet (s : State) : Result :=
  if s.sp = 0 then raise .stackUnderflow s else .next (popPc s)

/-- SYS nnn (R92): nothing. -/
def execSys (_nnn : Addr12) (s : State) : Result := .next s

end Sys2Proof.Machine
end

