-- ==== Sys2Proof/Machine/Immediate.lean ====
section
/-!
DEFINITION. The immediate family: LD Vx, kk; ADD Vx, kk; LD I, nnn (42_immediate.md).
-/

namespace Sys2Proof.Machine

/-- LD Vx, kk (R110). -/
def execLdImm (x : Nibble) (kk : Byte) (s : State) : Result := .next (writeV s x kk)

/-- ADD Vx, kk (R111): mod 256, no flag. -/
def execAddImm (x : Nibble) (kk : Byte) (s : State) : Result := .next (writeV s x (readV s x + kk))

/-- LD I, nnn (R112). -/
def execLdI (nnn : Addr12) (s : State) : Result := .next { s with i := zextAddr nnn }

end Sys2Proof.Machine
end

