-- ==== Sys2Proof/Machine/Unassigned.lean ====
section
/-!
DEFINITION. The unassigned encodings (45_unassigned.md R160 to R165): each is a no-op, which changes
nothing at EXECUTE beyond the timer step that every EXECUTE makes (60_exceptions.md R213).
-/

namespace Sys2Proof.Machine

/-- The effect of a no-op word (00_scope.md R14). -/
def noOp (s : State) : Result := .next s

/-- 8xy8 (R160). -/
def execAlu8 (_ignored : Byte) (s : State) : Result := noOp s

/-- 8xy9 (R160). -/
def execAlu9 (_ignored : Byte) (s : State) : Result := noOp s

/-- 8xyA (R160). -/
def execAluA (_ignored : Byte) (s : State) : Result := noOp s

/-- 8xyB (R160). -/
def execAluB (_ignored : Byte) (s : State) : Result := noOp s

/-- 8xyC (R160). -/
def execAluC (_ignored : Byte) (s : State) : Result := noOp s

/-- 8xyD (R160). -/
def execAluD (_ignored : Byte) (s : State) : Result := noOp s

/-- 8xyF (R160). -/
def execAluF (_ignored : Byte) (s : State) : Result := noOp s

/-- Bnnn (R161): not a jump. -/
def execFamB (_ignored : Addr12) (s : State) : Result := noOp s

/-- Cxkk (R162): no random number. -/
def execFamC (_ignored : Addr12) (s : State) : Result := noOp s

/-- Exkk (R163): never skips. -/
def execFamE (_ignored : Addr12) (s : State) : Result := noOp s

/-- Fxkk (R164): no timer, key, memory or index operation. -/
def execFamF (_ignored : Addr12) (s : State) : Result := noOp s

end Sys2Proof.Machine
end

