-- ==== Sys2Proof/Machine/Dispatch.lean ====
section
/-!
DEFINITION. The meaning of each instruction: one arm per constructor of `Instr`. What an arm answers is the
instruction's own rule; the timer step that follows it is made by `execute` (Machine/Cycle.lean).
-/

namespace Sys2Proof.Machine

def exec (i : Instr) (s : State) : Host.Outcome State Fault Refusal :=
  match i with
  | .cls => Sys2Proof.Machine.execCls s
  | .ret => Sys2Proof.Machine.execRet s
  | .sys nnn => Sys2Proof.Machine.execSys nnn s
  | .jp nnn => Sys2Proof.Machine.execJp nnn s
  | .call nnn => Sys2Proof.Machine.execCall nnn s
  | .seImm x kk => Sys2Proof.Machine.execSeImm x kk s
  | .sneImm x kk => Sys2Proof.Machine.execSneImm x kk s
  | .seReg x y low => Sys2Proof.Machine.execSeReg x y low s
  | .ldImm x kk => Sys2Proof.Machine.execLdImm x kk s
  | .addImm x kk => Sys2Proof.Machine.execAddImm x kk s
  | .ldReg x y => Sys2Proof.Machine.execLdReg x y s
  | .orReg x y => Sys2Proof.Machine.execOrReg x y s
  | .andReg x y => Sys2Proof.Machine.execAndReg x y s
  | .xorReg x y => Sys2Proof.Machine.execXorReg x y s
  | .addReg x y => Sys2Proof.Machine.execAddReg x y s
  | .subReg x y => Sys2Proof.Machine.execSubReg x y s
  | .shrReg x y => Sys2Proof.Machine.execShrReg x y s
  | .subnReg x y => Sys2Proof.Machine.execSubnReg x y s
  | .shlReg x y => Sys2Proof.Machine.execShlReg x y s
  | .alu8 ignored => Sys2Proof.Machine.execAlu8 ignored s
  | .alu9 ignored => Sys2Proof.Machine.execAlu9 ignored s
  | .aluA ignored => Sys2Proof.Machine.execAluA ignored s
  | .aluB ignored => Sys2Proof.Machine.execAluB ignored s
  | .aluC ignored => Sys2Proof.Machine.execAluC ignored s
  | .aluD ignored => Sys2Proof.Machine.execAluD ignored s
  | .aluF ignored => Sys2Proof.Machine.execAluF ignored s
  | .sneReg x y low => Sys2Proof.Machine.execSneReg x y low s
  | .ldI nnn => Sys2Proof.Machine.execLdI nnn s
  | .famB ignored => Sys2Proof.Machine.execFamB ignored s
  | .famC ignored => Sys2Proof.Machine.execFamC ignored s
  | .drw x y n => Sys2Proof.Machine.execDrw x y n s
  | .famE ignored => Sys2Proof.Machine.execFamE ignored s
  | .famF ignored => Sys2Proof.Machine.execFamF ignored s

end Sys2Proof.Machine
end

