-- ==== Sys2Proof/Machine/Cycle.lean ====
section
/-!
DEFINITION. EXECUTE and TICK (50_cycle_and_host.md R172, R173).
-/

namespace Sys2Proof.Machine

/-- What EXECUTE adds after the instruction's own rule: the timer step, unless the rule raised a fault
(R172, D20). -/
def settle (s : State) : State := if halted s then s else timerStep s

/-- What EXECUTE answers when the instruction's rule answers `r`. -/
def afterRule (r : Result) : Result :=
  match r with
  | .next s => .next (settle s)
  | .fault f => .fault f
  | .refused e => .refused e

/-- EXECUTE (R172): nothing when halted; else the rule of the instruction in `IR`, then the timer
step. -/
def execute (s : State) : Result :=
  if halted s then .next s else afterRule (exec (decode s.ir) s)

/-- TICK (R173): FETCH, then EXECUTE, which does nothing after a fault of the fetch. -/
def tick (s : State) : Result :=
  match fetch s with
  | .next t => execute t
  | .fault f => .fault f
  | .refused e => .refused e

end Sys2Proof.Machine
end

