-- ==== Sys2Proof/Machine/Step.lean ====
section
/-!
DEFINITION. The machine's step, one TICK, and the state with an instruction placed where that step fetches
it.
-/

namespace Sys2Proof.Machine

/-- One step of the core: TICK (50_cycle_and_host.md R170, R173). -/
def step (s : State) : Host.Outcome State Fault Refusal := tick s

/-- `s` with the instruction whose bits are `w` stored at `pc`, where `step` fetches it. It stands for
what a LOAD or a POKE puts there (log 7). -/
def State.withFetchWord (s : State) (nbits w : Nat) : State :=
  placeWord s (BitVec.ofNat 16 (w % 2 ^ nbits))

end Sys2Proof.Machine
end

