-- ==== Sys2Proof/Machine/HostOps.lean ====
section
/-!
DEFINITION. The host's operations on the core, the whole of 50_cycle_and_host.md R174, each with its result
and its refusals. Between two ticks the host may apply any of them (R182); `step` is TICK.
-/

namespace Sys2Proof.Machine

/-- A core built with the given STACK_DEPTH (00_scope.md R6, D2): the same step from its own reset state. The
core that the host runs is the one with the default (log 1). -/
def coreAt (depth : Option Nat) : Host.Core :=
  { State := State
    Fault := Fault
    Refusal := Refusal
    step := step
    reset := State.resetAt depth }

/-- An operation of the host with its arguments (R174). -/
inductive HostOp where
  /-- LOAD(image) (R175). -/
  | load (image : List Byte)
  /-- FETCH alone (R171, R182). -/
  | fetch
  /-- EXECUTE alone (R172, R182). -/
  | execute
  /-- READ_DIRTY (R179). -/
  | readDirty
  /-- CLEAR_DIRTY (R176). -/
  | clearDirty
  /-- READ_PIXEL(px, py) (R177). -/
  | readPixel (px py : Nat)
  /-- READ_DT (R178). -/
  | readDt
  /-- TICK (R173). -/
  | tick
  /-- POKE(addr, v) (R180). -/
  | poke (addr v : Nat)
  /-- READ_FAULT (R181). -/
  | readFault
deriving DecidableEq, Repr

/-- What an operation gives the host (R174, column "result"). -/
inductive HostValue where
  /-- No result. -/
  | nothing
  /-- The opcode FETCH returns. -/
  | opcode (op : Word)
  /-- `DIRTY` or a pixel. -/
  | bit (b : Bool)
  /-- `DT`. -/
  | byte (b : Byte)
  /-- The code in `FAULT`. -/
  | code (c : BitVec 3)
deriving DecidableEq, Repr

/-- What an operation of the host answers: the next state and the value given to the host. -/
abbrev HostResult := Host.Outcome (State × HostValue) Fault Refusal

/-- A step of the core that gives the host no value. -/
def silently (r : Result) : HostResult :=
  match r with
  | .next s => .next (s, .nothing)
  | .fault f => .fault f
  | .refused e => .refused e

/-- The reset state of a core of the given STACK_DEPTH with an image at 0x200 (R175, 10_state.md R35). -/
def loaded (depth : Option Nat) (image : List Byte) : State :=
  { State.resetAt depth with mem := writeBytes (State.resetAt depth).mem Config.progBase image }

/-- LOAD (R175): refused over 3584 bytes, else a whole reset and the copy, whatever the state was; a LOAD
does not change the STACK_DEPTH the core is built with. -/
def hostLoad (image : List Byte) (s : State) : HostResult :=
  if image.length ≤ Config.progMax then .next (loaded s.depth image, .nothing)
  else .refused .imageTooLong

/-- FETCH (R171) with the opcode it returns: none when the core is halted or the fetch faults. -/
def hostFetch (s : State) : HostResult :=
  match fetch s with
  | .next t => .next (t, if halted t then .nothing else .opcode t.ir)
  | .fault f => .fault f
  | .refused e => .refused e

/-- READ_PIXEL (R177): refused outside the grid. -/
def hostReadPixel (px py : Nat) (s : State) : HostResult :=
  if hx : px < 64 then
    if hy : py < 32 then .next (s, .bit (fbRead s.fb (⟨px, hx⟩, ⟨py, hy⟩)))
    else .refused .pixelOutsideGrid
  else .refused .pixelOutsideGrid

/-- POKE (R180): refused for an address over 4095 or a value over 255, else one cell written. -/
def hostPoke (addr v : Nat) (s : State) : HostResult :=
  if addr < Config.memSize then
    if v < 256 then .next ({ s with mem := writeByte s.mem addr (BitVec.ofNat 8 v) }, .nothing)
    else .refused .pokeNotAByte
  else .refused .pokeOutsideMemory

/-- Every operation of R174. -/
def hostOp (op : HostOp) (s : State) : HostResult :=
  match op with
  | .load image => hostLoad image s
  | .fetch => hostFetch s
  | .execute => silently (execute s)
  | .readDirty => .next (s, .bit s.dirty)
  | .clearDirty => .next ({ s with dirty := false }, .nothing)
  | .readPixel px py => hostReadPixel px py s
  | .readDt => .next (s, .byte s.dt)
  | .tick => silently (step s)
  | .poke addr v => hostPoke addr v s
  | .readFault => .next (s, .code (faultCode s.fault))

end Sys2Proof.Machine
end

