-- ==== Sys2Proof/Safety.lean ====
section
/-!
DEFINITION. The terms the statements use: the parts of the state and which of them two states agree on, the
invariant of 10_state.md R33, which instruction writes which part (R20), the words that are no-ops (R77),
the pixels a sprite covers (44_draw.md R141), `pc` through a tick (50_cycle_and_host.md R185), and a
sequence of ticks.
-/

namespace Sys2Proof.Machine

/-! ## Parts of the state -/

/-- The twelve elements of the state (10_state.md R20) and the parameter STACK_DEPTH. -/
inductive Part where
  | mem | v | i | pc | stack | sp | ir | fb | dirty | dt | div | fault | depth
deriving DecidableEq, Repr

/-- Two states agree on a part: what the model's own reads of it give is the same. -/
def agree (p : Part) (s t : State) : Prop :=
  match p with
  | .mem => ∀ a, readByte t.mem a = readByte s.mem a
  | .v => ∀ r, readV t r = readV s r
  | .i => t.i = s.i
  | .pc => t.pc = s.pc
  | .stack => ∀ k, readCell t.stack k = readCell s.stack k
  | .sp => t.sp = s.sp
  | .ir => t.ir = s.ir
  | .fb => ∀ q, fbRead t.fb q = fbRead s.fb q
  | .dirty => t.dirty = s.dirty
  | .dt => t.dt = s.dt
  | .div => t.div = s.div
  | .fault => t.fault = s.fault
  | .depth => t.depth = s.depth

/-- The frame: `t` agrees with `s` on every part but the listed ones. -/
def Frame (changed : List Part) (s t : State) : Prop := ∀ p, p ∉ changed → agree p s t

/-- `t` has the registers of `s` but for `x`, which holds `b`. -/
def OnlyReg (x : Nibble) (b : Byte) (s t : State) : Prop :=
  ∀ r, readV t r = if r = x then b else readV s r

/-- Which instructions write a part, the column "written by" of 10_state.md R20 (`FAULT` on a fault). `IR`
is written by FETCH, `DT` and `DIV` by the timer step, `MEM` by the host: by no instruction's rule. Nothing
writes STACK_DEPTH. -/
def writes (p : Part) : Instr → Bool
  | .cls => p == .fb || p == .dirty
  | .ret => p == .pc || p == .sp || p == .fault
  | .sys _ => false
  | .jp _ => p == .pc
  | .call _ => p == .pc || p == .stack || p == .sp || p == .fault
  | .seImm _ _ => p == .pc
  | .sneImm _ _ => p == .pc
  | .seReg _ _ _ => p == .pc
  | .ldImm _ _ => p == .v
  | .addImm _ _ => p == .v
  | .ldReg _ _ => p == .v
  | .orReg _ _ => p == .v
  | .andReg _ _ => p == .v
  | .xorReg _ _ => p == .v
  | .addReg _ _ => p == .v
  | .subReg _ _ => p == .v
  | .shrReg _ _ => p == .v
  | .subnReg _ _ => p == .v
  | .shlReg _ _ => p == .v
  | .alu8 _ => false
  | .alu9 _ => false
  | .aluA _ => false
  | .aluB _ => false
  | .aluC _ => false
  | .aluD _ => false
  | .aluF _ => false
  | .sneReg _ _ _ => p == .pc
  | .ldI _ => p == .i
  | .famB _ => false
  | .famC _ => false
  | .drw _ _ _ => p == .v || p == .fb || p == .dirty || p == .fault
  | .famE _ => false
  | .famF _ => false

/-- The register an instruction names as its destination. -/
def destination : Instr → Option Nibble
  | .cls => none
  | .ret => none
  | .sys _ => none
  | .jp _ => none
  | .call _ => none
  | .seImm _ _ => none
  | .sneImm _ _ => none
  | .seReg _ _ _ => none
  | .ldImm x _ => some x
  | .addImm x _ => some x
  | .ldReg x _ => some x
  | .orReg x _ => some x
  | .andReg x _ => some x
  | .xorReg x _ => some x
  | .addReg x _ => some x
  | .subReg x _ => some x
  | .shrReg x _ => some x
  | .subnReg x _ => some x
  | .shlReg x _ => some x
  | .alu8 _ => none
  | .alu9 _ => none
  | .aluA _ => none
  | .aluB _ => none
  | .aluC _ => none
  | .aluD _ => none
  | .aluF _ => none
  | .sneReg _ _ _ => none
  | .ldI _ => none
  | .famB _ => none
  | .famC _ => none
  | .drw _ _ _ => none
  | .famE _ => none
  | .famF _ => none

/-- The six instructions that write VF as a flag (10_state.md R23). -/
def writesFlag (i : Instr) : Prop :=
  (∃ x y, i = .addReg x y) ∨ (∃ x y, i = .subReg x y) ∨ (∃ x y, i = .shrReg x y) ∨
  (∃ x y, i = .subnReg x y) ∨ (∃ x y, i = .shlReg x y) ∨ (∃ x y n, i = .drw x y n)

/-! ## Encoding -/

/-- Every word whose bits under the mask are the match value decodes to the instruction that its fields
give: a row of 30_encoding.md R75 and R76. -/
def Encodes (mask value : Word) (i : Word → Instr) : Prop := ∀ op, op &&& mask = value → decode op = i op

/-! ## The invariant -/

/-- What holds in every state the host's operations reach (10_state.md R33, with `FETCH` and `EXECUTE`
only as the pair TICK, 50_cycle_and_host.md R182), and the canonical form of memory. The bounds of R33 on
`V`, `FB`, `DIV`, `DT` and `FAULT` are the types of those fields; a bounded STACK_DEPTH is at least 1
(00_scope.md R6). -/
structure Inv (s : State) : Prop where
  memory  : Memory.wf s.mem = true
  index   : s.i.toNat ≤ 4095
  counter : s.pc.toNat ≤ 4098
  built   : ∀ d, s.depth = some d → 1 ≤ d
  depth   : ∀ d, s.depth = some d → s.sp ≤ d
  cells   : ∀ d, s.depth = some d → s.stack.length = d
  entries : ∀ k, k < s.sp → 2 ≤ (readCell s.stack k).toNat ∧ (readCell s.stack k).toNat ≤ 4096

/-! ## Fetching -/

/-- The word at `pc`. -/
def wordAtPc (s : State) : Word := readWord s.mem s.pc.toNat

/-- The instruction a TICK executes. -/
def nextInstr (s : State) : Instr := decode (wordAtPc s)

/-- The state EXECUTE starts from: FETCH has latched the word and moved `pc` on by 2
(50_cycle_and_host.md R171). -/
def fetched (s : State) : State := { s with ir := wordAtPc s, pc := s.pc + 2 }

/-- `FETCH` does not fault: not halted, and both bytes at `pc` in memory. -/
def Ready (s : State) : Prop := s.fault = none ∧ s.pc.toNat ≤ 4094

/-- A no-op word (30_encoding.md R77): 0nnn other than the two full words, an unassigned selector of
family 8, or a word of family B, C, E or F. -/
def NoOpWord (op : Word) : Prop :=
  (op &&& 0xF000#16 = 0x0000#16 ∧ op ≠ 0x00E0#16 ∧ op ≠ 0x00EE#16) ∨
  (op &&& 0xF00F#16) ∈ [0x8008#16, 0x8009#16, 0x800A#16, 0x800B#16, 0x800C#16, 0x800D#16, 0x800F#16] ∨
  (op &&& 0xF000#16) ∈ [0xB000#16, 0xC000#16, 0xE000#16, 0xF000#16]

/-- `pc` after a TICK of an instruction that does not fault, from the state before it
(50_cycle_and_host.md R185). -/
def pcAfterTick (i : Instr) (s : State) : Nat :=
  match i with
  | .jp nnn => nnn.toNat
  | .call nnn => nnn.toNat
  | .ret => (readCell s.stack (s.sp - 1)).toNat
  | .seImm x kk => if readV s x = kk then s.pc.toNat + 4 else s.pc.toNat + 2
  | .sneImm x kk => if readV s x ≠ kk then s.pc.toNat + 4 else s.pc.toNat + 2
  | .seReg x y _ => if readV s x = readV s y then s.pc.toNat + 4 else s.pc.toNat + 2
  | .sneReg x y _ => if readV s x ≠ readV s y then s.pc.toNat + 4 else s.pc.toNat + 2
  | _ => s.pc.toNat + 2

/-- The fault EXECUTE of an instruction raises, by the conditions of 60_exceptions.md R200. -/
def Faults (i : Instr) (s : State) (f : Fault) : Prop :=
  (i = .ret ∧ s.sp = 0 ∧ f = .stackUnderflow) ∨
  (∃ nnn, i = .call nnn ∧ s.depth = some s.sp ∧ f = .stackOverflow) ∨
  (∃ x y n, i = .drw x y n ∧ 0 < n.toNat ∧ s.i.toNat + n.toNat - 1 > 4095 ∧ f = .indexRange)

/-! ## Drawing -/

/-- The pixel lies under a set bit of the sprite of `n` rows at address `i`, drawn at the register values
`a` and `b` (44_draw.md R141, R146, R147). -/
def Covers (m : Memory) (i : Nat) (a b : Byte) (n : Nat) (p : Pixel) : Prop :=
  ∃ row < n, ∃ col < 8, (readByte m (i + row)).getLsbD (7 - col) = true ∧
    p.1.val = (a.toNat + col) % 64 ∧ p.2.val = (b.toNat + row) % 32

/-- `Covers` for the sprite that DRW Vx, Vy, n draws in a state. -/
def CoveredBy (s : State) (x y n : Nibble) (p : Pixel) : Prop :=
  Covers s.mem s.i.toNat (readV s x) (readV s y) n.toNat p

/-! ## Sequences of ticks -/

/-- `t` is reached from `s` by ticks that execute exactly these instructions, none of them faulting. -/
inductive Ticks : List Instr → State → State → Prop where
  | done (s : State) : Ticks [] s s
  | tick {i : Instr} {is : List Instr} {s u t : State} (ready : Ready s) (fetches : nextInstr s = i)
      (stepped : step s = .next u) (sound : u.fault = none) (rest : Ticks is u t) : Ticks (i :: is) s t

end Sys2Proof.Machine
end

