-- ==== Sys2Proof/Certificates/Slice0/Obligations.lean ====
section
/-!
DEFINITION. The statements for the provers, from the numbered rules of spec/. A docstring names the rule a
statement formalises, and the decision D<n> of 92_eei_decisions.md where a clause rests on one.
-/

open Sys2Proof Sys2Proof.Machine

/-! ## Encoding (30_encoding.md) -/

/-- Every well-formed instruction, encoded as the two bytes memory holds, decodes to itself, and the bytes
after it are left over. -/
def Obligations.DecodeOfEncodeIsIdentity : Prop :=
  ∀ i : Instr, i.wf = true → ∀ rest, decodeBytes (encodeBytes i ++ rest) = .ok (i, rest)

/-- Every one of the 65536 words decodes to a well-formed instruction, whose encoding is that word: no bit
of a word is dropped, and no two words are one instruction. -/
def Obligations.EncodeOfDecodeIsIdentity : Prop :=
  ∀ op : Word, (decode op).wf = true ∧ encode (decode op) = op

/-- The decoder is "first row whose (op & mask) == match" of the opcode table, and two different rows apply
to one word only where one of them is CLS or RET and the other is SYS (R74). -/
def Obligations.DecoderIsTheFirstMatchingRow : Prop :=
  ∀ op : Word,
    (opcodeRows.find? fun r => r.applies op).map Row.form = some (formOf (decode op)) ∧
    ∀ r ∈ opcodeRows, ∀ q ∈ opcodeRows, r.applies op = true → q.applies op = true → r ≠ q →
      ((r.form = "00E0" ∨ r.form = "00EE") ∧ q.form = "0nnn") ∨
      ((q.form = "00E0" ∨ q.form = "00EE") ∧ r.form = "0nnn")

/-- Words written out bit by bit from the encodings of R71, R72, R75, R76 and R77, at least one of each of
the sixteen families (top nibble) and of each of the five formats, and what they decode to. -/
def Obligations.WrittenOutWordsDecode : Prop :=
  decode 0b0000000011100000#16 = .cls ∧
  decode 0b0000000011101110#16 = .ret ∧
  decode 0b0000000100100011#16 = .sys 0x123#12 ∧
  decode 0b0001001000110100#16 = .jp 0x234#12 ∧
  decode 0b0010001100000000#16 = .call 0x300#12 ∧
  decode 0b0011001100101010#16 = .seImm 0x3#4 0x2A#8 ∧
  decode 0b0100000000000001#16 = .sneImm 0x0#4 0x01#8 ∧
  decode 0b0101000100101111#16 = .seReg 0x1#4 0x2#4 0xF#4 ∧
  decode 0b0110000000001010#16 = .ldImm 0x0#4 0x0A#8 ∧
  decode 0b0111001000100000#16 = .addImm 0x2#4 0x20#8 ∧
  decode 0b1000000100100101#16 = .subReg 0x1#4 0x2#4 ∧
  decode 0b1000000100001110#16 = .shlReg 0x1#4 0x0#4 ∧
  decode 0b1000000100101000#16 = .alu8 0x12#8 ∧
  decode 0b1001000100100000#16 = .sneReg 0x1#4 0x2#4 0x0#4 ∧
  decode 0b1010111111111111#16 = .ldI 0xFFF#12 ∧
  decode 0b1011001100000000#16 = .famB 0x300#12 ∧
  decode 0b1100001111111111#16 = .famC 0x3FF#12 ∧
  decode 0b1101000000010001#16 = .drw 0x0#4 0x1#4 0x1#4 ∧
  decode 0b1110000110011110#16 = .famE 0x19E#12 ∧
  decode 0b1111001000010101#16 = .famF 0x215#12

/-! ## FETCH, EXECUTE, TICK (50_cycle_and_host.md) -/

/-- A step runs the instruction its two bytes decode to: on a core not halted, with `pc` at most 4094, a
TICK is the instruction's rule in the state where `IR` holds the word and `pc` has moved on by 2, and after
a rule that raised no fault the timer step. -/
def Obligations.StepRunsTheDecodedInstruction : Prop :=
  ∀ (s : State) (i : Instr), Ready s →
    decodeBytes [readByte s.mem s.pc.toNat, readByte s.mem (s.pc.toNat + 1)] = .ok (i, []) →
    step s = afterRule
      (exec i { s with
        ir := wordOfBytes (readByte s.mem s.pc.toNat) (readByte s.mem (s.pc.toNat + 1)),
        pc := s.pc + 2 }) ∧
    ∀ t, afterRule (.next t) = .next (if t.fault = none then timerStep t else t)

/-- FETCH alone (R171, D7): on a halted core nothing; with `pc` > 4094 FAULT is 2 and nothing else
changes; else the big-endian word at `pc` goes to `IR` and to the host, `pc` moves on by 2, and nothing
else changes. -/
def Obligations.FetchLatchesTheBigEndianWord : Prop :=
  ∀ s : State,
    (s.fault ≠ none → hostOp .fetch s = .next (s, .nothing)) ∧
    (s.fault = none → 4094 < s.pc.toNat →
      hostOp .fetch s = .next ({ s with fault := some .fetchRange }, .nothing)) ∧
    (Ready s → ∃ t op, hostOp .fetch s = .next (t, .opcode op) ∧
      op.toNat = 256 * (readByte s.mem s.pc.toNat).toNat + (readByte s.mem (s.pc.toNat + 1)).toNat ∧
      t.ir = op ∧ t.pc.toNat = s.pc.toNat + 2 ∧ Frame [.ir, .pc] s t)

/-- EXECUTE alone (R172): on a core not halted it is the rule of the instruction in `IR`, which leaves `IR`,
`DIV` and `DT`, and after a rule that raised no fault (D20) the timer step. A TICK is FETCH, then EXECUTE of
what FETCH left (R173). -/
def Obligations.ExecuteRunsTheLatchedWord : Prop :=
  (∀ s : State, s.fault = none → ∃ t, exec (decode s.ir) s = .next t ∧
    hostOp .execute s = .next (if t.fault = none then timerStep t else t, .nothing) ∧
    t.ir = s.ir ∧ t.div = s.div ∧ t.dt = s.dt) ∧
  ∀ (s t : State) (r : HostValue), hostOp .fetch s = .next (t, r) → hostOp .tick s = hostOp .execute t

/-- A halted core: FETCH, EXECUTE and TICK change nothing at all; CLEAR_DIRTY and POKE still work; LOAD ends
the halt (R183, D6). -/
def Obligations.HaltedCoreChangesOnlyByTheHost : Prop :=
  ∀ s : State, s.fault ≠ none →
    step s = .next s ∧ execute s = .next s ∧ fetch s = .next s ∧
    hostOp .clearDirty s = .next ({ s with dirty := false }, .nothing) ∧
    (∀ a b : Nat, a ≤ 4095 → b ≤ 255 → ∃ t, hostOp (.poke a b) s = .next (t, .nothing) ∧
      (readByte t.mem a).toNat = b ∧ t.fault = s.fault) ∧
    (∀ image : List Byte, image.length ≤ 3584 →
      ∃ t, hostOp (.load image) s = .next (t, .nothing) ∧ t.fault = none)

/-- Every TICK answers a next state: the step is total, and no instruction is refused (R173, R237). It
speaks of totality only: a TICK that faults, or that is issued on a halted core, answers a next state too,
since a fault is a state with the latch set (log 2, DEDUCED from R208 and the spec's decision D6); when a
fault arises is said by FaultsAreExactAndPrecise. -/
def Obligations.EveryTickAnswersANextState : Prop :=
  ∀ s : State, ∃ t, step s = .next t

/-- When a TICK of a core that is not halted faults, and that it changes nothing else: the conditions of the
table of R200 (D2, D6 to D9), for states within the invariant. FetchRange leaves everything; the three
faults of EXECUTE leave what FETCH did. -/
def Obligations.FaultsAreExactAndPrecise : Prop :=
  ∀ s t : State, Inv s → s.fault = none → step s = .next t →
    (4094 < s.pc.toNat → t = { s with fault := some .fetchRange }) ∧
    (s.pc.toNat ≤ 4094 →
      (∀ f, Faults (nextInstr s) s f → t = { fetched s with fault := some f }) ∧
      ((∀ f, ¬ Faults (nextInstr s) s f) → t.fault = none))

/-- `pc` after a TICK that does not fault, for every instruction (R185, which the spec derives). -/
def Obligations.PcThroughATick : Prop :=
  ∀ s t : State, s.fault = none → step s = .next t → t.fault = none →
    t.pc.toNat = pcAfterTick (nextInstr s) s

/-- A TICK that does not fault steps the timer once, whatever the instruction; one that faults, or that is
issued on a halted core, leaves DIV and DT (R172, R213, D5, D20). -/
def Obligations.TickStepsTheTimerOnce : Prop :=
  ∀ s t : State, step s = .next t →
    (t.fault = none →
      t.div.toNat = (s.div.toNat + 1) % 16 ∧
      t.dt.toNat = if s.div.toNat = 15 then s.dt.toNat - 1 else s.dt.toNat) ∧
    (t.fault ≠ none → t.div = s.div ∧ t.dt = s.dt)

/-- The closed form of R213 (D5): after k timer steps from DIV = d0 and DT = t0, DIV = (d0 + k) mod 16 and
DT = max(0, t0 - floor((d0 + k) / 16)); nothing else changes. -/
def Obligations.TimerClosedForm : Prop :=
  ∀ (k : Nat) (s : State),
    (timerStep^[k] s).div.toNat = (s.div.toNat + k) % 16 ∧
    (timerStep^[k] s).dt.toNat = s.dt.toNat - (s.div.toNat + k) / 16 ∧
    Frame [.div, .dt] s (timerStep^[k] s)

/-! ## The invariant and the whole machine (10_state.md, 20_memory.md) -/

/-- The invariant holds right after reset, of the core that the host runs and of a core of every STACK_DEPTH
(R6, D2; log 1): the bounds of R33, which the spec derives, with the canonical form of memory and the listed
stack cells, which are the model's own (log 4, log 5). -/
def Obligations.InvariantHoldsAtReset : Prop :=
  Inv State.reset ∧
  ∀ depth : Option Nat, (∀ d, depth = some d → 1 ≤ d) → Inv (State.resetAt depth)

/-- Every step keeps the invariant, at every STACK_DEPTH: I at most 4095, pc at most 4098, the stack within
its depth, every live entry in 2 to 4096 (R33, which the spec derives), and memory canonical, the stack's
cells listed and the depth at least 1, which are the model's own (log 1, log 4, log 5). -/
def Obligations.InvariantKeptByEveryStep : Prop :=
  ∀ s t : State, Inv s → step s = .next t → Inv t

/-- Every operation of the host keeps the invariant, FETCH and EXECUTE only as the pair TICK, at every
STACK_DEPTH (R33, which the spec derives; R174, R182; D14, D16; log 1, log 4, log 5). -/
def Obligations.InvariantKeptByEveryHostOperation : Prop :=
  ∀ (op : HostOp) (s t : State) (r : HostValue), op ≠ .fetch → op ≠ .execute → Inv s →
    hostOp op s = .next (t, r) → Inv t

/-- Only LOAD and POKE write memory, LOAD the image's addresses (with every other byte reset to 0) and POKE
one cell: every other operation of the host, TICK among them, leaves every byte (R54; POKE and the reset
value 0 are the spec's decisions D16 and D1). -/
def Obligations.OnlyLoadAndPokeWriteMemory : Prop :=
  ∀ (op : HostOp) (s t : State) (r : HostValue), hostOp op s = .next (t, r) →
    (∃ image, op = .load image ∧
      ∀ a, a < 0x200 ∨ 0x200 + image.length ≤ a → readByte t.mem a = 0) ∨
    (∃ a b, op = .poke a b ∧ ∀ c, c ≠ a → readByte t.mem c = readByte s.mem c) ∨
    ∀ a, readByte t.mem a = readByte s.mem a

/-- Each element of the state is written only by the instructions R20 names for it: an instruction changes
no part outside its row of that table. -/
def Obligations.EachElementHasItsWriters : Prop :=
  ∀ (i : Instr) (s t : State) (p : Part), exec i s = .next t → writes p i = false → agree p s t

/-- A register changes only as the destination of the instruction or, for VF, as the flag of one of exactly
six instructions, whose flag is 0 or 1 where VF is not the destination (R20, R23; the last clause rests on
D10). -/
def Obligations.RegistersChangeAsDestinationOrFlag : Prop :=
  ∀ (i : Instr) (s t : State) (r : Nibble), exec i s = .next t →
    (readV t r ≠ readV s r → destination i = some r ∨ (r = 0xF#4 ∧ writesFlag i)) ∧
    (writesFlag i → s.fault = none → t.fault = none → destination i ≠ some 0xF#4 →
      readV t 0xF#4 = 0 ∨ readV t 0xF#4 = 1)

/-- DT, DIV and DIRTY are read by no instruction (R29, R30, R31, R235): two states that differ only there
step to states that differ only there. -/
def Obligations.TimerAndDirtyFlagAreNeverRead : Prop :=
  ∀ s u t : State, Frame [.dt, .div, .dirty] s u → step s = .next t →
    ∃ v, step u = .next v ∧ Frame [.dt, .div, .dirty] t v

/-- The stack cells at SP and above cannot be observed (R26, which the spec derives): two states that agree
on everything but those cells step to two states that agree on everything but the cells at their SP and
above. -/
def Obligations.DeadStackCellsCannotBeObserved : Prop :=
  ∀ s u t : State, Frame [.stack] s u → (∀ k < s.sp, readCell u.stack k = readCell s.stack k) →
    step s = .next t →
    ∃ v, step u = .next v ∧ Frame [.stack] t v ∧
      ∀ k < t.sp, readCell v.stack k = readCell t.stack k

/-- I is read by DRW alone (R20, R24): any other instruction does the same whatever I holds, and leaves what
it held, unless it is LD I, nnn, which sets it. -/
def Obligations.OnlyDrwReadsTheIndexRegister : Prop :=
  ∀ (i : Instr) (s t : State) (w : Word), (∀ x y n, i ≠ .drw x y n) → exec i s = .next t →
    exec i { s with i := w } =
      .next { t with i := match i with | .ldI nnn => zextAddr nnn | _ => w }

/-! ## Family 0 (40_fullword.md) -/

/-- CLS, the word 00E0, clears every pixel and sets DIRTY, whatever they were, and changes nothing else
(R90). -/
def Obligations.ClsClearsEveryPixel : Prop :=
  (∀ op : Word, decode op = .cls ↔ op = 0x00E0#16) ∧
  ∀ s : State, ∃ t, exec .cls s = .next t ∧ (∀ p, fbRead t.fb p = false) ∧ t.dirty = true ∧
    Frame [.fb, .dirty] s t

/-- RET, the word 00EE, with a live entry takes the newest one as pc and makes it dead, and changes nothing
else (R91). -/
def Obligations.RetPopsTheNewestEntry : Prop :=
  (∀ op : Word, decode op = .ret ↔ op = 0x00EE#16) ∧
  ∀ s : State, 0 < s.sp → ∃ t, exec .ret s = .next t ∧
    t.pc = readCell s.stack (s.sp - 1) ∧ t.sp + 1 = s.sp ∧ Frame [.pc, .sp] s t

/-- RET on an empty stack sets FAULT to StackUnderflow and changes nothing else (R91, R203, D9). -/
def Obligations.RetOnAnEmptyStackFaults : Prop :=
  ∀ s : State, s.sp = 0 → exec .ret s = .next { s with fault := some .stackUnderflow }

/-- SYS and every unassigned word are no-ops: EXECUTE of any no-op word (R77) and of any of the twelve
instructions SYS, 8xy8 to 8xyD, 8xyF, Bnnn, Cxkk, Exkk, Fxkk changes nothing (R92, R160 to R164). -/
def Obligations.NoOpWordsChangeNothing : Prop :=
  (∀ (op : Word) (s : State), NoOpWord op → exec (decode op) s = .next s) ∧
  ∀ (nnn : Addr12) (xy : Byte) (s : State),
    exec (.sys nnn) s = .next s ∧ exec (.alu8 xy) s = .next s ∧ exec (.alu9 xy) s = .next s ∧
    exec (.aluA xy) s = .next s ∧ exec (.aluB xy) s = .next s ∧ exec (.aluC xy) s = .next s ∧
    exec (.aluD xy) s = .next s ∧ exec (.aluF xy) s = .next s ∧ exec (.famB nnn) s = .next s ∧
    exec (.famC nnn) s = .next s ∧ exec (.famE nnn) s = .next s ∧ exec (.famF nnn) s = .next s

/-! ## Control transfer (41_control_transfer.md) -/

/-- JP, 1nnn, sets pc to nnn, zero-extended and not checked, and changes nothing else; after JP 0xFFF the
next FETCH faults (R100). -/
def Obligations.JpSetsPc : Prop :=
  Encodes 0xF000#16 0x1000#16 (fun op => .jp (nnnOf op)) ∧
  ∀ (nnn : Addr12) (s : State), ∃ t, exec (.jp nnn) s = .next t ∧ t.pc.toNat = nnn.toNat ∧
    Frame [.pc] s t ∧
    (nnn = 0xFFF#12 → s.fault = none → fetch t = .next { t with fault := some .fetchRange })

/-- JP to its own address stays put (R100, R184): each TICK after the first leaves every part of the state
but DIV and DT. -/
def Obligations.ASelfJumpStaysPut : Prop :=
  ∀ (nnn : Addr12) (s : State), Ready s → nextInstr s = .jp nnn → nnn.toNat = s.pc.toNat →
    ∃ t u, step s = .next t ∧ Frame [.ir, .div, .dt] s t ∧ step t = .next u ∧ Frame [.div, .dt] t u

/-- CALL, 2nnn, with SP other than STACK_DEPTH, whatever the depth, unbounded included: the return address,
which is pc after FETCH, becomes the newest entry, pc is nnn, and nothing else changes (R101, D2; the depth
is a field of State, log 1). -/
def Obligations.CallPushesTheReturnAddress : Prop :=
  Encodes 0xF000#16 0x2000#16 (fun op => .call (nnnOf op)) ∧
  ∀ (nnn : Addr12) (s : State), s.depth ≠ some s.sp →
    ∃ t, exec (.call nnn) s = .next t ∧ t.pc.toNat = nnn.toNat ∧ t.sp = s.sp + 1 ∧
      readCell t.stack s.sp = s.pc ∧ (∀ k, k ≠ s.sp → readCell t.stack k = readCell s.stack k) ∧
      Frame [.pc, .sp, .stack] s t

/-- CALL with SP = STACK_DEPTH, at every bounded depth, sets FAULT to StackOverflow and changes nothing
else; with an unbounded depth no step raises StackOverflow (R101, R204, D2; the depth is a field of State,
log 1). -/
def Obligations.CallOnAFullStackFaults : Prop :=
  (∀ (nnn : Addr12) (s : State), s.depth = some s.sp →
    exec (.call nnn) s = .next { s with fault := some .stackOverflow }) ∧
  ∀ s t : State, s.depth = none → s.fault = none → step s = .next t → t.fault ≠ some .stackOverflow

/-- SE Vx, kk (3xkk) adds 2 to pc when Vx equals kk, SNE Vx, kk (4xkk) when it differs, and each leaves pc
otherwise; so exactly one of the two skips; nothing else changes (R102, R103). -/
def Obligations.SkipsOnAnImmediate : Prop :=
  Encodes 0xF000#16 0x3000#16 (fun op => .seImm (xOf op) (kkOf op)) ∧
  Encodes 0xF000#16 0x4000#16 (fun op => .sneImm (xOf op) (kkOf op)) ∧
  ∀ (x : Nibble) (kk : Byte) (s : State), ∃ t u,
    exec (.seImm x kk) s = .next t ∧ exec (.sneImm x kk) s = .next u ∧
    t.pc = (if readV s x = kk then s.pc + 2 else s.pc) ∧
    u.pc = (if readV s x = kk then s.pc else s.pc + 2) ∧
    Frame [.pc] s t ∧ Frame [.pc] s u ∧ t.pc ≠ u.pc

/-- SE Vx, Vy (5xy0) and SNE Vx, Vy (9xy0), the same with two registers, whatever the low nibble, which the
spec decides is not decoded (R104, R105, R78, D11); with x = y SE always skips and SNE never does. -/
def Obligations.SkipsOnTwoRegisters : Prop :=
  Encodes 0xF000#16 0x5000#16 (fun op => .seReg (xOf op) (yOf op) (nOf op)) ∧
  Encodes 0xF000#16 0x9000#16 (fun op => .sneReg (xOf op) (yOf op) (nOf op)) ∧
  ∀ (x y low : Nibble) (s : State), ∃ t u,
    exec (.seReg x y low) s = .next t ∧ exec (.sneReg x y low) s = .next u ∧
    t.pc = (if readV s x = readV s y then s.pc + 2 else s.pc) ∧
    u.pc = (if readV s x = readV s y then s.pc else s.pc + 2) ∧
    Frame [.pc] s t ∧ Frame [.pc] s u ∧
    (x = y → t.pc = s.pc + 2 ∧ u.pc = s.pc)

/-- N nested calls and N returns balance (R106 with 90_conflicts.md C9): ticks that execute N >= 1 CALLs and
then N RETs, none faulting, end with the stack depth and every live entry as before and pc after the first,
outermost CALL. -/
def Obligations.CallsThenReturnsBalance : Prop :=
  ∀ (targets : List Addr12) (s t : State), targets ≠ [] →
    Ticks (targets.map Instr.call ++ List.replicate targets.length Instr.ret) s t →
    t.sp = s.sp ∧ t.pc = s.pc + 2 ∧ ∀ k < s.sp, readCell t.stack k = readCell s.stack k

/-! ## Immediates (42_immediate.md) -/

/-- LD Vx, kk (6xkk) sets Vx to kk; ADD Vx, kk (7xkk) sets it to (Vx + kk) mod 256 and never touches VF as a
flag; nothing else changes (R110, R111). -/
def Obligations.ImmediateLoadAndAdd : Prop :=
  Encodes 0xF000#16 0x6000#16 (fun op => .ldImm (xOf op) (kkOf op)) ∧
  Encodes 0xF000#16 0x7000#16 (fun op => .addImm (xOf op) (kkOf op)) ∧
  ∀ (x : Nibble) (kk : Byte) (s : State), ∃ t u,
    exec (.ldImm x kk) s = .next t ∧ exec (.addImm x kk) s = .next u ∧
    OnlyReg x kk s t ∧ (readV u x).toNat = ((readV s x).toNat + kk.toNat) % 256 ∧
    (∀ r, r ≠ x → readV u r = readV s r) ∧ Frame [.v] s t ∧ Frame [.v] s u

/-- LD I, nnn (Annn) sets I to nnn, zero-extended, and changes nothing else; it is the only instruction that
writes I (R112). -/
def Obligations.LdISetsTheIndexRegister : Prop :=
  Encodes 0xF000#16 0xA000#16 (fun op => .ldI (nnnOf op)) ∧
  (∀ (nnn : Addr12) (s : State), ∃ t, exec (.ldI nnn) s = .next t ∧ t.i.toNat = nnn.toNat ∧
    Frame [.i] s t) ∧
  ∀ (i : Instr) (s t : State), exec i s = .next t → t.i ≠ s.i → ∃ nnn, i = .ldI nnn

/-! ## The ALU (43_alu.md) -/

/-- LD, OR, AND and XOR (8xy0 to 8xy3) write Vx with Vy and with the three bitwise results, and no other
register, VF included unless x is 15 (R121 to R124). -/
def Obligations.CopyAndLogicWriteOnlyTheDestination : Prop :=
  Encodes 0xF00F#16 0x8000#16 (fun op => .ldReg (xOf op) (yOf op)) ∧
  Encodes 0xF00F#16 0x8001#16 (fun op => .orReg (xOf op) (yOf op)) ∧
  Encodes 0xF00F#16 0x8002#16 (fun op => .andReg (xOf op) (yOf op)) ∧
  Encodes 0xF00F#16 0x8003#16 (fun op => .xorReg (xOf op) (yOf op)) ∧
  ∀ (x y : Nibble) (s : State), ∃ t₁ t₂ t₃ t₄,
    exec (.ldReg x y) s = .next t₁ ∧ exec (.orReg x y) s = .next t₂ ∧
    exec (.andReg x y) s = .next t₃ ∧ exec (.xorReg x y) s = .next t₄ ∧
    readV t₁ x = readV s y ∧
    (∀ k < 8, (readV t₂ x).getLsbD k = ((readV s x).getLsbD k || (readV s y).getLsbD k)) ∧
    (∀ k < 8, (readV t₃ x).getLsbD k = ((readV s x).getLsbD k && (readV s y).getLsbD k)) ∧
    (∀ k < 8, (readV t₄ x).getLsbD k = ((readV s x).getLsbD k != (readV s y).getLsbD k)) ∧
    (∀ r, r ≠ x → readV t₁ r = readV s r ∧ readV t₂ r = readV s r ∧ readV t₃ r = readV s r ∧
      readV t₄ r = readV s r) ∧
    Frame [.v] s t₁ ∧ Frame [.v] s t₂ ∧ Frame [.v] s t₃ ∧ Frame [.v] s t₄

/-- ADD Vx, Vy (8xy4): the sum mod 256 in Vx, then VF = 1 exactly when the sum exceeds 255, so with x = 15
VF holds the carry (R125). The operands are the registers before any write, also when x or y is 15 (D10). -/
def Obligations.AddSetsSumThenCarry : Prop :=
  Encodes 0xF00F#16 0x8004#16 (fun op => .addReg (xOf op) (yOf op)) ∧
  ∀ (x y : Nibble) (s : State), ∃ t, exec (.addReg x y) s = .next t ∧
    (x ≠ 0xF#4 → (readV t x).toNat = ((readV s x).toNat + (readV s y).toNat) % 256) ∧
    (readV t 0xF#4).toNat = (if (readV s x).toNat + (readV s y).toNat > 255 then 1 else 0) ∧
    (∀ r, r ≠ x → r ≠ 0xF#4 → readV t r = readV s r) ∧ Frame [.v] s t

/-- SUB and SUBN (8xy5, 8xy7): VF = 1 exactly when the minuend is strictly greater, then the difference mod
256 in Vx, so with x = 15 VF holds the difference (R126, R128). The operands are the registers before any
write, also when x or y is 15 (D10). -/
def Obligations.SubtractionsSetStrictFlagThenDifference : Prop :=
  Encodes 0xF00F#16 0x8005#16 (fun op => .subReg (xOf op) (yOf op)) ∧
  Encodes 0xF00F#16 0x8007#16 (fun op => .subnReg (xOf op) (yOf op)) ∧
  ∀ (x y : Nibble) (s : State), ∃ t u,
    exec (.subReg x y) s = .next t ∧ exec (.subnReg x y) s = .next u ∧
    ((readV t x).toNat : Int) = ((readV s x).toNat - (readV s y).toNat : Int) % 256 ∧
    ((readV u x).toNat : Int) = ((readV s y).toNat - (readV s x).toNat : Int) % 256 ∧
    (x ≠ 0xF#4 →
      (readV t 0xF#4).toNat = (if (readV s x).toNat > (readV s y).toNat then 1 else 0) ∧
      (readV u 0xF#4).toNat = (if (readV s y).toNat > (readV s x).toNat then 1 else 0)) ∧
    (∀ r, r ≠ x → r ≠ 0xF#4 → readV t r = readV s r ∧ readV u r = readV s r) ∧
    Frame [.v] s t ∧ Frame [.v] s u

/-- SHR and SHL (8xy6, 8xyE): VF = the bit shifted out, then Vx shifted by one, so with x = 15 VF holds the
shifted value (D10); Vy is neither read nor written, whatever y (R127, R129). -/
def Obligations.ShiftsSetTheBitShiftedOutThenResult : Prop :=
  Encodes 0xF00F#16 0x8006#16 (fun op => .shrReg (xOf op) (yOf op)) ∧
  Encodes 0xF00F#16 0x800E#16 (fun op => .shlReg (xOf op) (yOf op)) ∧
  ∀ (x y : Nibble) (s : State), ∃ t u,
    exec (.shrReg x y) s = .next t ∧ exec (.shlReg x y) s = .next u ∧
    (readV t x).toNat = (readV s x).toNat / 2 ∧
    (readV u x).toNat = (readV s x).toNat * 2 % 256 ∧
    (x ≠ 0xF#4 → (readV t 0xF#4).toNat = (readV s x).toNat % 2 ∧
      (readV u 0xF#4).toNat = (readV s x).toNat / 128) ∧
    (∀ r, r ≠ x → r ≠ 0xF#4 → readV t r = readV s r ∧ readV u r = readV s r) ∧
    Frame [.v] s t ∧ Frame [.v] s u

/-- The final VF of each ALU instruction whose destination is VF, with a the old VF and b the old Vy (R130,
D10). -/
def Obligations.FinalVfWhenVfIsTheDestination : Prop :=
  ∀ (y : Nibble) (s : State) (a b : Nat), a = (readV s 0xF#4).toNat → b = (readV s y).toNat →
    (∀ t, exec (.ldReg 0xF#4 y) s = .next t → (readV t 0xF#4).toNat = b) ∧
    (∀ t, exec (.orReg 0xF#4 y) s = .next t → (readV t 0xF#4).toNat = a ||| b) ∧
    (∀ t, exec (.andReg 0xF#4 y) s = .next t → (readV t 0xF#4).toNat = a &&& b) ∧
    (∀ t, exec (.xorReg 0xF#4 y) s = .next t → (readV t 0xF#4).toNat = a ^^^ b) ∧
    (∀ t, exec (.addReg 0xF#4 y) s = .next t →
      (readV t 0xF#4).toNat = if a + b > 255 then 1 else 0) ∧
    (∀ t, exec (.subReg 0xF#4 y) s = .next t →
      ((readV t 0xF#4).toNat : Int) = ((a : Int) - (b : Int)) % 256) ∧
    (∀ t, exec (.shrReg 0xF#4 y) s = .next t → (readV t 0xF#4).toNat = a / 2) ∧
    (∀ t, exec (.subnReg 0xF#4 y) s = .next t →
      ((readV t 0xF#4).toNat : Int) = ((b : Int) - (a : Int)) % 256) ∧
    (∀ t, exec (.shlReg 0xF#4 y) s = .next t → (readV t 0xF#4).toNat = 2 * a % 256)

/-! ## Drawing (44_draw.md) -/

/-- DRW (Dxyn) of a sprite inside memory, n = 0 among them: every pixel it covers is inverted and no other,
VF is 1 exactly when a covered pixel was set before, DIRTY is 1 whether or not a pixel changed, and nothing
else changes (R141, R145; the wrap of the coordinates, the bit order, the row count 0, the latched operands,
the place of the range check and DIRTY after a draw that changes no pixel are the spec's decisions D3, D4,
D12, D10, D8 and D19). -/
def Obligations.DrawInvertsTheCoveredPixels : Prop :=
  Encodes 0xF000#16 0xD000#16 (fun op => .drw (xOf op) (yOf op) (nOf op)) ∧
  ∀ (x y n : Nibble) (s : State), n.toNat = 0 ∨ s.i.toNat + n.toNat - 1 ≤ 4095 →
    ∃ t, exec (.drw x y n) s = .next t ∧
      (∀ p, CoveredBy s x y n p → fbRead t.fb p = !fbRead s.fb p) ∧
      (∀ p, ¬ CoveredBy s x y n p → fbRead t.fb p = fbRead s.fb p) ∧
      ((∃ p, CoveredBy s x y n p ∧ fbRead s.fb p = true) → readV t 0xF#4 = 1) ∧
      ((∀ p, CoveredBy s x y n p → fbRead s.fb p = false) → readV t 0xF#4 = 0) ∧
      t.dirty = true ∧ (∀ r, r ≠ 0xF#4 → readV t r = readV s r) ∧
      Frame [.v, .fb, .dirty] s t

/-- DRW with n > 0 of a sprite past address 4095 sets FAULT to IndexRange and changes nothing else; with I
in its range the least I that can fault is 4082, with n = 15, and I = 4095 faults for every n >= 2 (R202,
D8). -/
def Obligations.DrawPastTheEndOfMemoryFaults : Prop :=
  (∀ (x y n : Nibble) (s : State), 0 < n.toNat → 4095 < s.i.toNat + n.toNat - 1 →
    exec (.drw x y n) s = .next { s with fault := some .indexRange }) ∧
  (∀ (x y n : Nibble) (s t : State), s.fault = none → exec (.drw x y n) s = .next t →
    t.fault ≠ none → 4082 ≤ s.i.toNat ∧ (s.i.toNat = 4082 → n.toNat = 15)) ∧
  ∀ (x y n : Nibble) (s : State), s.i.toNat = 4095 → 2 ≤ n.toNat →
    exec (.drw x y n) s = .next { s with fault := some .indexRange }

/-- No two set bits of one sprite reach the same pixel, whatever the coordinates (R141 corner case d, which
the spec derives; the wrap is its decision D3). -/
def Obligations.ASpriteNeverTogglesAPixelTwice : Prop :=
  ∀ (m : Memory) (i : Nat) (a b : Byte) (n : Nibble), (spritePixels m i a b n.toNat).Nodup

/-- Drawing the identical sprite twice at the identical place restores every pixel; after the second draw VF
is 1 exactly when a covered pixel was clear before the first (R148 a, which the spec derives; the wrap and
the latched operands are its decisions D3 and D10). Identical: x and y are not VF, which the first draw
writes. -/
def Obligations.DrawingTwiceRestoresTheScreen : Prop :=
  ∀ (x y n : Nibble) (s t u : State), x ≠ 0xF#4 → y ≠ 0xF#4 → s.fault = none →
    exec (.drw x y n) s = .next t → exec (.drw x y n) t = .next u → u.fault = none →
    (∀ p, fbRead u.fb p = fbRead s.fb p) ∧
    (readV u 0xF#4 = 1 ↔ ∃ p, CoveredBy s x y n p ∧ fbRead s.fb p = false)

/-! ## The host's operations (50_cycle_and_host.md) -/

/-- LOAD (R175, R35; the zeros are the spec's decisions D1, D5, D6, D17, D19, D21, the length limit D15): an
image over 3584 bytes is refused; else, whatever the state was, the image lies at 0x200, every other byte is
0, pc is 0x200, and every other element is zero; the STACK_DEPTH the core is built with stays (log 1). -/
def Obligations.LoadResetsEverythingAndCopiesTheImage : Prop :=
  ∀ (image : List Byte) (s : State),
    (3584 < image.length → hostOp (.load image) s = .refused .imageTooLong) ∧
    (image.length ≤ 3584 → ∃ t, hostOp (.load image) s = .next (t, .nothing) ∧
      (∀ k, k < image.length → readByte t.mem (0x200 + k) = image.getD k 0) ∧
      (∀ a, a < 0x200 ∨ 0x200 + image.length ≤ a → readByte t.mem a = 0) ∧
      (∀ r, readV t r = 0) ∧ t.i = 0 ∧ t.pc = 0x200#16 ∧ t.sp = 0 ∧
      (∀ k, readCell t.stack k = 0) ∧ t.ir = 0 ∧ (∀ p, fbRead t.fb p = false) ∧
      t.dirty = false ∧ t.dt = 0 ∧ t.div = 0 ∧ t.fault = none ∧ t.depth = s.depth)

/-- The reset state is the state after LOAD of the empty image, at every STACK_DEPTH, and `State.reset` is
the one of depth 16, the default of R6 (R230, R35, D2; log 1). -/
def Obligations.ResetIsLoadOfTheEmptyImage : Prop :=
  (∀ s : State, hostOp (.load []) s = .next (State.resetAt s.depth, .nothing)) ∧
  State.reset = State.resetAt (some 16)

/-- POKE inside its ranges writes one cell and changes nothing else, and outside them is refused (R180,
D16). -/
def Obligations.PokeWritesOneCell : Prop :=
  ∀ (a b : Nat) (s : State),
    (a ≤ 4095 → b ≤ 255 → ∃ t, hostOp (.poke a b) s = .next (t, .nothing) ∧
      (readByte t.mem a).toNat = b ∧ (∀ c, c ≠ a → readByte t.mem c = readByte s.mem c) ∧
      Frame [.mem] s t) ∧
    (4095 < a ∨ 255 < b → ∃ e, hostOp (.poke a b) s = .refused e)

/-- READ_DIRTY, READ_DT and CLEAR_DIRTY: the flag and the timer are given and nothing changes; DIRTY becomes
0 and nothing else changes (R176, R178, R179). -/
def Obligations.DirtyFlagAndTimerOperations : Prop :=
  ∀ s : State,
    hostOp .readDirty s = .next (s, .bit s.dirty) ∧ hostOp .readDt s = .next (s, .byte s.dt) ∧
    ∃ t, hostOp .clearDirty s = .next (t, .nothing) ∧ t.dirty = false ∧ Frame [.dirty] s t

/-- READ_PIXEL gives the pixel inside the grid and is refused outside it (R177, D22); READ_FAULT gives 0
when no fault is latched and the codes 1 to 4 of R181; neither changes anything. -/
def Obligations.PixelAndFaultReads : Prop :=
  ∀ (s : State) (px py : Nat),
    (∀ (hx : px < 64) (hy : py < 32),
      hostOp (.readPixel px py) s = .next (s, .bit (fbRead s.fb (⟨px, hx⟩, ⟨py, hy⟩)))) ∧
    (64 ≤ px ∨ 32 ≤ py → hostOp (.readPixel px py) s = .refused .pixelOutsideGrid) ∧
    ∃ c, hostOp .readFault s = .next (s, .code c) ∧
      (s.fault = none → c.toNat = 0) ∧ (s.fault = some .stackUnderflow → c.toNat = 1) ∧
      (s.fault = some .fetchRange → c.toNat = 2) ∧ (s.fault = some .indexRange → c.toNat = 3) ∧
      (s.fault = some .stackOverflow → c.toNat = 4)

/-- A word poked at pc is what the next TICK latches and executes (R61, R180; POKE is the spec's decision
D16): two POKEs, of its high byte at pc and its low byte at pc + 1, then the TICK is the rule of the
instruction it decodes to. -/
def Obligations.APokedWordIsExecuted : Prop :=
  ∀ (s : State) (hi lo : Byte), Ready s →
    ∃ t u, hostOp (.poke s.pc.toNat hi.toNat) s = .next (t, .nothing) ∧
      hostOp (.poke (s.pc.toNat + 1) lo.toNat) t = .next (u, .nothing) ∧
      step u = afterRule
        (exec (decode (wordOfBytes hi lo)) { u with ir := wordOfBytes hi lo, pc := s.pc + 2 })

/-- The first TICK after LOAD fetches the first two bytes of the image (R232, which the spec derives): IR is
that word. -/
def Obligations.ALoadedProgramStartsAtItsFirstWord : Prop :=
  ∀ (hi lo : Byte) (rest : List Byte) (s t u : State), rest.length + 2 ≤ 3584 →
    hostOp (.load (hi :: lo :: rest)) s = .next (t, .nothing) → step t = .next u →
    u.ir = wordOfBytes hi lo ∧ nextInstr t = decode (wordOfBytes hi lo)

/-- Where the host would place an instruction, the next step executes it: `withFetchWord` on a core that can
fetch (model's own; log 7). -/
def Obligations.APlacedWordIsTheNextInstruction : Prop :=
  ∀ (s : State) (w : Nat), Ready s →
    nextInstr (s.withFetchWord 16 w) = decode (BitVec.ofNat 16 w) ∧
    decodeTableWord 16 w = some (decode (BitVec.ofNat 16 w)) ∧
    Frame [.mem] s (s.withFetchWord 16 w) ∧
    ∀ a, a ≠ s.pc.toNat → a ≠ s.pc.toNat + 1 →
      readByte (s.withFetchWord 16 w).mem a = readByte s.mem a

/-- The STACK_DEPTH a core is built with never changes: no operation of the host, TICK and LOAD among them,
writes it (R6, R34: it is a parameter; the field that holds it is the model's own, log 1). -/
def Obligations.TheStackDepthNeverChanges : Prop :=
  ∀ (op : HostOp) (s t : State) (r : HostValue), hostOp op s = .next (t, r) → t.depth = s.depth
end

