-- ==== Sys2Proof/Laws/Encoding.lean ====
section
/-!
SUPPORT. The fields of an encoded word: what each field function reads from each format, and a word put
together again from its fields.
-/

namespace Sys2Proof

variable (fam x y n : Nibble) (kk xy : Byte) (nnn : Addr12) (op : Word)

/-! ## Fields of an encoded word (30_encoding.md R71, R72) -/

@[simp] theorem famOf_encNNN : famOf (encNNN fam nnn) = fam :=
  BitVec.extractLsb'_append_eq_left

@[simp] theorem nnnOf_encNNN : nnnOf (encNNN fam nnn) = nnn :=
  BitVec.extractLsb'_append_eq_right

/-- A field in the high byte of a word of two bytes. -/
theorem extract_high (hi lo : Byte) (start len : Nat) (h : 8 ≤ start) :
    (hi ++ lo : Word).extractLsb' start len = hi.extractLsb' (start - 8) len :=
  BitVec.extractLsb'_append_eq_of_le h

/-- A field in the low byte of a word of two bytes. -/
theorem extract_low (hi lo : Byte) (start len : Nat) (h : start + len ≤ 8) :
    (hi ++ lo : Word).extractLsb' start len = lo.extractLsb' start len :=
  BitVec.extractLsb'_append_eq_of_add_le h

/-- The high nibble of a byte of two nibbles. -/
theorem high_nibble (a b : Nibble) : (a ++ b : Byte).extractLsb' 4 4 = a :=
  BitVec.extractLsb'_append_eq_left

/-- The low nibble of a byte of two nibbles. -/
theorem low_nibble (a b : Nibble) : (a ++ b : Byte).extractLsb' 0 4 = b :=
  BitVec.extractLsb'_append_eq_right

@[simp] theorem famOf_encXKK : famOf (encXKK fam x kk) = fam :=
  (extract_high _ _ 12 4 (by omega)).trans (high_nibble fam x)

@[simp] theorem xOf_encXKK : xOf (encXKK fam x kk) = x :=
  (extract_high _ _ 8 4 (by omega)).trans (low_nibble fam x)

@[simp] theorem kkOf_encXKK : kkOf (encXKK fam x kk) = kk :=
  BitVec.extractLsb'_append_eq_right

@[simp] theorem famOf_encXYN : famOf (encXYN fam x y n) = fam :=
  (extract_high _ _ 12 4 (by omega)).trans (high_nibble fam x)

@[simp] theorem xOf_encXYN : xOf (encXYN fam x y n) = x :=
  (extract_high _ _ 8 4 (by omega)).trans (low_nibble fam x)

@[simp] theorem yOf_encXYN : yOf (encXYN fam x y n) = y :=
  (extract_low _ _ 4 4 (by omega)).trans (high_nibble y n)

@[simp] theorem nOf_encXYN : nOf (encXYN fam x y n) = n :=
  (extract_low _ _ 0 4 (by omega)).trans (low_nibble y n)

@[simp] theorem nOf_encAlu : nOf (encAlu xy n) = n :=
  BitVec.extractLsb'_append_eq_right

@[simp] theorem xyOf_encAlu : xyOf (encAlu xy n) = xy := by
  have h : (encAlu xy n).extractLsb' 4 8 = (0x8#4 ++ xy : Addr12).extractLsb' 0 8 :=
    BitVec.extractLsb'_append_eq_of_le (by omega)
  exact h.trans BitVec.extractLsb'_append_eq_right

@[simp] theorem famOf_encAlu : famOf (encAlu xy n) = 0x8#4 := by
  have h : (encAlu xy n).extractLsb' 12 4 = (0x8#4 ++ xy : Addr12).extractLsb' 8 4 :=
    BitVec.extractLsb'_append_eq_of_le (by omega)
  exact h.trans BitVec.extractLsb'_append_eq_left

/-! ## A word from its fields -/

/-- A whole word is its bits 15 to 0. -/
theorem extract_all : op.extractLsb' 0 16 = op := by simp

theorem encNNN_fields : encNNN (famOf op) (nnnOf op) = op :=
  (BitVec.extractLsb'_append_extractLsb'_eq_extractLsb' (by rfl)).trans (extract_all op)

/-- The high byte from its nibbles. -/
theorem highByte_fields : (famOf op ++ xOf op : Byte) = op.extractLsb' 8 8 :=
  BitVec.extractLsb'_append_extractLsb'_eq_extractLsb' (by rfl)

/-- The low byte from its nibbles. -/
theorem lowByte_fields : (yOf op ++ nOf op : Byte) = op.extractLsb' 0 8 :=
  BitVec.extractLsb'_append_extractLsb'_eq_extractLsb' (by rfl)

/-- A word from its two bytes, as memory holds them. -/
theorem wordOfBytes_bytes : wordOfBytes (hiByte op) (loByte op) = op :=
  (BitVec.extractLsb'_append_extractLsb'_eq_extractLsb' (by rfl)).trans (extract_all op)

theorem hiByte_wordOfBytes (hi lo : Byte) : hiByte (wordOfBytes hi lo) = hi :=
  BitVec.extractLsb'_append_eq_left

theorem loByte_wordOfBytes (hi lo : Byte) : loByte (wordOfBytes hi lo) = lo :=
  BitVec.extractLsb'_append_eq_right

theorem encXKK_fields : encXKK (famOf op) (xOf op) (kkOf op) = op := by
  unfold encXKK
  rw [highByte_fields]
  exact wordOfBytes_bytes op

theorem encXYN_fields : encXYN (famOf op) (xOf op) (yOf op) (nOf op) = op := by
  unfold encXYN
  rw [highByte_fields, lowByte_fields]
  exact wordOfBytes_bytes op

theorem encAlu_fields (h : famOf op = 0x8#4) : encAlu (xyOf op) (nOf op) = op := by
  unfold encAlu
  rw [← h]
  have e : (famOf op ++ xyOf op : Addr12) = op.extractLsb' 4 12 :=
    BitVec.extractLsb'_append_extractLsb'_eq_extractLsb' (by rfl)
  rw [e]
  exact (BitVec.extractLsb'_append_extractLsb'_eq_extractLsb' (by rfl)).trans (extract_all op)

/-! ## The decoder's order (R74) -/

/-- Outside family 0 the two full words do not matter. -/
theorem decode_of_family {op : Word} (h : famOf op ≠ 0x0#4) : decode op = decodeFamily op := by
  have h1 : op ≠ 0x00E0#16 := fun e => h (by rw [e]; decide)
  have h2 : op ≠ 0x00EE#16 := fun e => h (by rw [e]; decide)
  simp [decode, h1, h2]

/-- In family 0, any word but the two full words is SYS. -/
theorem decode_sys {op : Word} (h : famOf op = 0x0#4) (h1 : op ≠ 0x00E0#16) (h2 : op ≠ 0x00EE#16) :
    decode op = .sys (nnnOf op) := by
  simp [decode, h1, h2, decodeFamily, h]

/-! ## The masks of the opcode table -/

/-- The mask of a family keeps the top nibble. -/
theorem mask_encNNN : encNNN fam nnn &&& 0xF000#16 = encNNN fam 0#12 := by
  have h : (0xF000#16 : Word) = (0xF#4 ++ 0#12 : Word) := by decide
  rw [h]
  refine (BitVec.and_append (x₁ := fam) (y₁ := nnn)).trans ?_
  have h1 : fam &&& 0xF#4 = fam := BitVec.and_allOnes
  simp [h1, encNNN]

/-- The same, of any word. -/
theorem mask_family : op &&& 0xF000#16 = encNNN (famOf op) 0#12 := by
  have := mask_encNNN (famOf op) (nnnOf op)
  rwa [encNNN_fields] at this

/-- The mask of the ALU family keeps the top and the low nibble. -/
theorem mask_alu : op &&& 0xF00F#16 = encAlu 0#8 (nOf op) ↔ famOf op = 0x8#4 := by
  have h : (0xF00F#16 : Word) = ((0xF#4 ++ 0#4 : Byte) ++ (0#4 ++ 0xF#4 : Byte) : Word) := by decide
  have e : op &&& 0xF00F#16 = ((famOf op ++ 0#4 : Byte) ++ (0#4 ++ nOf op : Byte) : Word) := by
    have h1 : famOf op &&& 0xF#4 = famOf op := BitVec.and_allOnes
    have h2 : nOf op &&& 0xF#4 = nOf op := BitVec.and_allOnes
    conv_lhs => rw [← encXYN_fields op, h]
    unfold encXYN
    refine (BitVec.and_append (x₁ := (famOf op ++ xOf op : Byte))).trans ?_
    have e1 : ((famOf op ++ xOf op : Byte) &&& (0xF#4 ++ 0#4 : Byte)) = (famOf op ++ 0#4 : Byte) := by
      refine (BitVec.and_append (x₁ := famOf op)).trans ?_
      simp [h1]
    have e2 : ((yOf op ++ nOf op : Byte) &&& (0#4 ++ 0xF#4 : Byte)) = (0#4 ++ nOf op : Byte) := by
      refine (BitVec.and_append (x₁ := yOf op)).trans ?_
      simp [h2]
    rw [e1, e2]
  rw [e]
  constructor
  · intro hh
    have := congrArg famOf hh
    rw [famOf_encAlu] at this
    exact ((extract_high _ _ 12 4 (by omega)).trans (high_nibble (famOf op) 0#4)).symm.trans this
  · intro hf
    rw [hf]
    generalize nOf op = k
    revert k
    decide

end Sys2Proof
end

