-- ==== Sys2Proof/Laws/Memory.lean ====
section
/-!
SUPPORT. Memory, the call-stack cells and the framebuffer as stores: a read after a write, and the canonical
form kept by every memory operation.
-/

namespace Sys2Proof.Machine

/-! ## Memory -/

@[simp] theorem readByte_nil (k : Nat) : readByte [] k = 0 := rfl

theorem readByte_eraseCell (k : Nat) (m : Memory) (j : Nat) :
    readByte (eraseCell k m) j = if j = k then 0 else readByte m j := by
  induction m with
  | nil => simp [eraseCell]
  | cons c m ih =>
    obtain ⟨a, b⟩ := c
    simp only [eraseCell] at ih
    by_cases h : a = k
    · subst h
      simp only [eraseCell, List.filter, bne_self_eq_false, ih, readByte]
      split <;> simp_all
    · have h' : (a != k) = true := by simpa using h
      simp only [eraseCell, List.filter, h', readByte, ih]
      split
      · next e => subst e; simp [h]
      · rfl

theorem readByte_insertCell (k : Nat) (b : Byte) (m : Memory) (hk : readByte m k = 0) (j : Nat)
    (h : ∀ c ∈ m, c.1 ≠ k) : readByte (insertCell k b m) j = if j = k then b else readByte m j := by
  induction m with
  | nil => simp [insertCell, readByte]
  | cons c m ih =>
    obtain ⟨a, e⟩ := c
    have ha : a ≠ k := h (a, e) (by simp)
    have hk' : readByte m k = 0 := by
      simp only [readByte, Ne.symm ha, if_false] at hk
      exact hk
    have ih' := ih hk' (fun c hc => h c (by simp [hc]))
    simp only [insertCell]
    split
    · simp [readByte]
    · simp only [readByte, ih']
      split
      · next e' => subst e'; simp [ha]
      · rfl

theorem mem_eraseCell {k : Nat} {m : Memory} {c : Host.Cell} (h : c ∈ eraseCell k m) : c.1 ≠ k := by
  simp [eraseCell] at h
  exact h.2

/-- A read after a write of one byte: the byte written at its address, the old byte elsewhere. -/
@[simp] theorem readByte_writeByte (m : Memory) (k : Nat) (b : Byte) (j : Nat) :
    readByte (writeByte m k b) j = if j = k then b else readByte m j := by
  unfold writeByte
  split
  · next h => rw [readByte_eraseCell, h]
  · rw [readByte_insertCell _ _ _ (by rw [readByte_eraseCell]; simp) _ (fun c hc => mem_eraseCell hc),
      readByte_eraseCell]
    split <;> simp_all

/-- A read after bytes written upward from an address. -/
theorem readByte_writeBytes (bs : List Byte) : ∀ (m : Memory) (a j : Nat),
    readByte (writeBytes m a bs) j =
      if a ≤ j ∧ j < a + bs.length then bs.getD (j - a) 0 else readByte m j := by
  induction bs with
  | nil => intro m a j; simp [writeBytes]
  | cons b bs ih =>
    intro m a j
    rw [writeBytes, ih, readByte_writeByte]
    simp only [List.length_cons]
    by_cases h1 : j = a
    · subst h1
      simp
    · by_cases h2 : a + 1 ≤ j ∧ j < a + 1 + bs.length
      · have h3 : a ≤ j ∧ j < a + (bs.length + 1) := by omega
        obtain ⟨k, hk⟩ : ∃ k, j - a = k + 1 := ⟨j - a - 1, by omega⟩
        have hk' : j - (a + 1) = k := by omega
        simp [h2, h3, hk, hk']
      · have h3 : ¬ (a ≤ j ∧ j < a + (bs.length + 1)) := by omega
        rw [if_neg h2, if_neg h3, if_neg h1]

theorem wfFrom_mono {m : Memory} {lo lo' : Nat} (h : wfFrom lo m = true) (hl : lo' ≤ lo) :
    wfFrom lo' m = true := by
  cases m with
  | nil => rfl
  | cons c m =>
    obtain ⟨a, b⟩ := c
    simp [wfFrom] at h ⊢
    exact ⟨⟨⟨by omega, h.1.1.2⟩, h.1.2⟩, h.2⟩

theorem wfFrom_eraseCell (k : Nat) (m : Memory) : ∀ lo, wfFrom lo m = true →
    wfFrom lo (eraseCell k m) = true := by
  induction m with
  | nil => intro lo h; simpa [eraseCell] using h
  | cons c m ih =>
    obtain ⟨a, b⟩ := c
    intro lo h
    simp [wfFrom] at h
    by_cases hk : a = k
    · have : eraseCell k ((a, b) :: m) = eraseCell k m := by simp [eraseCell, hk]
      rw [this]
      exact ih lo (wfFrom_mono h.2 (by omega))
    · have : eraseCell k ((a, b) :: m) = (a, b) :: eraseCell k m := by simp [eraseCell, hk]
      rw [this]
      simp [wfFrom, h.1.1.1, h.1.1.2, h.1.2, ih _ h.2]

theorem wfFrom_insertCell (k : Nat) (b : Byte) (hk : k < Config.memSize) (hb : b ≠ 0) (m : Memory) :
    ∀ lo, lo ≤ k → (∀ c ∈ m, c.1 ≠ k) → wfFrom lo m = true → wfFrom lo (insertCell k b m) = true := by
  induction m with
  | nil =>
    intro lo hlo _ _
    have hb' : (b != 0) = true := by simpa using hb
    simp only [insertCell, wfFrom, hlo, hk, hb', decide_true, Bool.and_self]
  | cons c m ih =>
    obtain ⟨a, e⟩ := c
    intro lo hlo hm h
    have ha : a ≠ k := hm (a, e) (by simp)
    have hb' : (b != 0) = true := by simpa using hb
    simp only [insertCell]
    split
    · next hka =>
      simp only [wfFrom, Bool.and_eq_true, decide_eq_true_eq] at h ⊢
      exact ⟨⟨⟨hlo, hk⟩, hb'⟩, ⟨⟨by omega, h.1.1.2⟩, h.1.2⟩, h.2⟩
    · simp [wfFrom] at h
      simp [wfFrom, h.1.1.1, h.1.1.2, h.1.2,
        ih (a + 1) (by omega) (fun c hc => hm c (by simp [hc])) h.2]

/-- Every write inside memory keeps the canonical form. -/
theorem writeByte_wf {m : Memory} (h : Memory.wf m = true) {k : Nat} (hk : k < Config.memSize)
    (b : Byte) : Memory.wf (writeByte m k b) = true := by
  unfold writeByte Memory.wf
  split
  · exact wfFrom_eraseCell k m 0 h
  · next hb =>
    exact wfFrom_insertCell k b hk hb _ 0 (by omega) (fun c hc => mem_eraseCell hc)
      (wfFrom_eraseCell k m 0 h)

/-- A copy that ends inside memory keeps the canonical form. -/
theorem writeBytes_wf (bs : List Byte) : ∀ {m : Memory} {a : Nat}, Memory.wf m = true →
    a + bs.length ≤ Config.memSize → Memory.wf (writeBytes m a bs) = true := by
  induction bs with
  | nil => intro m a h _; exact h
  | cons b bs ih =>
    intro m a h hl
    simp only [List.length_cons] at hl
    exact ih (writeByte_wf h (by omega) b) (by omega)

/-- Memory right after reset has the canonical form. -/
theorem reset_mem_wf (depth : Option Nat) : Memory.wf (State.resetAt depth).mem = true := rfl

/-- Placing a word for the next fetch keeps the canonical form. -/
theorem placeWord_wf {s : State} (h : Memory.wf s.mem = true) (op : Word) :
    Memory.wf (placeWord s op).mem = true := by
  unfold placeWord canFetch
  split
  · next hc =>
    have hc := of_decide_eq_true hc
    exact writeByte_wf (writeByte_wf h (by omega) _) hc _
  · exact h

/-- The word at an address after its two bytes were written there. -/
theorem readWord_written (m : Memory) (a : Nat) (hi lo : Byte) :
    readWord (writeByte (writeByte m a hi) (a + 1) lo) a = wordOfBytes hi lo := by
  simp [readWord]

/-! ## Call-stack cells -/

/-- A read after a write of one cell. -/
@[simp] theorem readCell_writeCell (cells : List Word) (k : Nat) (w : Word) (j : Nat) :
    readCell (writeCell cells k w) j = if j = k then w else readCell cells j := by
  unfold writeCell
  split
  · next h =>
    simp only [readCell, List.getD_eq_getElem?_getD, List.getElem?_set]
    by_cases hj : k = j
    · subst hj; simp [h]
    · simp [hj, Ne.symm hj]
  · next h =>
    simp only [readCell, List.getD_eq_getElem?_getD]
    rcases Nat.lt_trichotomy j k with hj | hj | hj
    · by_cases hl : j < cells.length
      · rw [List.getElem?_append_left (by simp; omega), List.getElem?_append_left hl,
          if_neg (show ¬ j = k by omega)]
      · rw [List.getElem?_append_left (by simp; omega), List.getElem?_append_right (by omega),
          List.getElem?_replicate, if_neg (show ¬ j = k by omega),
          List.getElem?_eq_none (show cells.length ≤ j by omega)]
        split <;> rfl
    · subst hj
      rw [List.getElem?_append_right (by simp; omega), if_pos rfl]
      have : j - (cells ++ List.replicate (j - cells.length) (0 : Word)).length = 0 := by simp; omega
      rw [this]
      rfl
    · rw [List.getElem?_eq_none (by simp; omega), List.getElem?_eq_none (by omega), if_neg (by omega)]

/-- A write inside the listed cells keeps their number. -/
theorem writeCell_length {cells : List Word} {k : Nat} (h : k < cells.length) (w : Word) :
    (writeCell cells k w).length = cells.length := by
  simp [writeCell, h]

/-- Every cell of the stack right after reset holds 0. -/
theorem reset_stack_cell (depth : Option Nat) (k : Nat) : readCell (State.resetAt depth).stack k = 0 := by
  simp only [State.resetAt, readCell, List.getD_eq_getElem?_getD, List.getElem?_replicate]
  split <;> rfl

/-! ## The framebuffer -/

/-- FbRead after FbToggle: the toggled pixel is inverted, every other one is as before (44_draw.md
R142, R143). -/
@[simp] theorem fbRead_fbToggle (fb : Framebuffer) (p q : Pixel) :
    fbRead (fbToggle fb p) q = if q = p then !fbRead fb p else fbRead fb q := by
  obtain ⟨px, py⟩ := p
  obtain ⟨qx, qy⟩ := q
  simp only [fbRead, fbToggle, Vector.getElem_set, Prod.mk.injEq]
  by_cases hy : py.val = qy.val
  · have hy' : qy = py := Fin.ext hy.symm
    subst hy'
    simp only [if_true, Vector.getElem_set]
    by_cases hx : px.val = qx.val
    · have hx' : qx = px := Fin.ext hx.symm
      subst hx'
      simp
    · have hx' : ¬ qx = px := fun e => hx (by rw [e])
      simp [hx, hx']
  · have hy' : ¬ qy = py := fun e => hy (by rw [e])
    simp [hy, hy']

/-- Every pixel of the blank framebuffer is 0 (R144). -/
@[simp] theorem fbRead_blank (p : Pixel) : fbRead Framebuffer.blank p = false := by
  simp [fbRead, Framebuffer.blank]

/-- Two framebuffers that read the same are the same. -/
theorem fb_ext {a b : Framebuffer} (h : ∀ p, fbRead a p = fbRead b p) : a = b := by
  apply Vector.ext
  intro y hy
  apply Vector.ext
  intro x hx
  exact h (⟨x, hx⟩, ⟨y, hy⟩)

theorem toggleAll_nil (fb : Framebuffer) (hit : Bool) : toggleAll [] fb hit = (fb, hit) := rfl

theorem toggleAll_cons (p : Pixel) (ps : List Pixel) (fb : Framebuffer) (hit : Bool) :
    toggleAll (p :: ps) fb hit = toggleAll ps (fbToggle fb p) (hit || fbRead fb p) := rfl

/-- What toggling pixels that are all different does: each of them is inverted, the others stay. -/
theorem fbRead_toggleAll {ps : List Pixel} (nd : ps.Nodup) : ∀ (fb : Framebuffer) (hit : Bool)
    (q : Pixel), fbRead (toggleAll ps fb hit).1 q = if q ∈ ps then !fbRead fb q else fbRead fb q := by
  induction ps with
  | nil => intro fb hit q; simp [toggleAll]
  | cons p ps ih =>
    intro fb hit q
    have hp : p ∉ ps := (List.nodup_cons.mp nd).1
    rw [toggleAll_cons, ih (List.nodup_cons.mp nd).2, fbRead_fbToggle]
    by_cases h : q = p
    · subst h; simp [hp]
    · simp [h]

/-- The collision of toggling pixels that are all different: one of them was set before. -/
theorem toggleAll_hit {ps : List Pixel} (nd : ps.Nodup) : ∀ (fb : Framebuffer) (hit : Bool),
    (toggleAll ps fb hit).2 = (hit || ps.any fun p => fbRead fb p) := by
  induction ps with
  | nil => intro fb hit; simp [toggleAll]
  | cons p ps ih =>
    intro fb hit
    have hp : p ∉ ps := (List.nodup_cons.mp nd).1
    rw [toggleAll_cons, ih (List.nodup_cons.mp nd).2, List.any_cons, Bool.or_assoc]
    congr 2
    apply Bool.eq_iff_iff.mpr
    simp only [List.any_eq_true, fbRead_fbToggle]
    constructor
    · rintro ⟨r, hr, h⟩
      have : r ≠ p := fun e => hp (e ▸ hr)
      exact ⟨r, hr, by simpa [this] using h⟩
    · rintro ⟨r, hr, h⟩
      have : r ≠ p := fun e => hp (e ▸ hr)
      exact ⟨r, hr, by simpa [this] using h⟩

end Sys2Proof.Machine
end

