-- ==== Sys2Proof/Laws/PerInstr.lean ====
section
/-!
SUPPORT. Per instruction: the word the encoder gives an instruction is a word of the instruction's own row of
spec/opcode_table.json (its bits under the row's mask are the row's match).
-/

namespace Sys2Proof.Laws.OnItsRow

/-- The encoded instruction lies in the row of the table that names its form. -/
def Statement (i : Instr) : Prop :=
  ∃ r ∈ opcodeRows, r.form = formOf i ∧ encode i &&& r.mask = r.value

/-- A word of a family whose row is matched on the top nibble alone. -/
theorem of_family {i : Instr} {fam : Nibble} (r : Row) (hr : r ∈ opcodeRows)
    (hf : r.form = formOf i) (hm : r.mask = 0xF000#16) (hv : r.value = encNNN fam 0#12)
    (h : famOf (encode i) = fam) : Statement i :=
  ⟨r, hr, hf, by rw [hm, hv, mask_family, h]⟩

/-- A word of the ALU family, matched on the top and the low nibble. -/
theorem of_alu {i : Instr} (r : Row) (hr : r ∈ opcodeRows) (hf : r.form = formOf i)
    (hm : r.mask = 0xF00F#16) (hv : r.value = encAlu 0#8 (nOf (encode i)))
    (h : famOf (encode i) = 0x8#4) : Statement i :=
  ⟨r, hr, hf, by rw [hm, hv]; exact (mask_alu (encode i)).mpr h⟩

theorem cls : Statement .cls := ⟨⟨"00E0", 0xFFFF#16, 0x00E0#16⟩, by decide, rfl, by decide⟩

theorem ret : Statement .ret := ⟨⟨"00EE", 0xFFFF#16, 0x00EE#16⟩, by decide, rfl, by decide⟩

theorem sys (nnn : Addr12) : Statement (.sys nnn) :=
  of_family ⟨"0nnn", 0xF000#16, 0x0000#16⟩ (by decide) rfl rfl (by decide) (fam := 0x0#4)
    (by simp [encode])

theorem jp (nnn : Addr12) : Statement (.jp nnn) :=
  of_family ⟨"1nnn", 0xF000#16, 0x1000#16⟩ (by decide) rfl rfl (by decide) (fam := 0x1#4)
    (by simp [encode])

theorem call (nnn : Addr12) : Statement (.call nnn) :=
  of_family ⟨"2nnn", 0xF000#16, 0x2000#16⟩ (by decide) rfl rfl (by decide) (fam := 0x2#4)
    (by simp [encode])

theorem seImm (x : Nibble) (kk : Byte) : Statement (.seImm x kk) :=
  of_family ⟨"3xkk", 0xF000#16, 0x3000#16⟩ (by decide) rfl rfl (by decide) (fam := 0x3#4)
    (by simp [encode])

theorem sneImm (x : Nibble) (kk : Byte) : Statement (.sneImm x kk) :=
  of_family ⟨"4xkk", 0xF000#16, 0x4000#16⟩ (by decide) rfl rfl (by decide) (fam := 0x4#4)
    (by simp [encode])

theorem seReg (x : Nibble) (y : Nibble) (low : Nibble) : Statement (.seReg x y low) :=
  of_family ⟨"5xy0", 0xF000#16, 0x5000#16⟩ (by decide) rfl rfl (by decide) (fam := 0x5#4)
    (by simp [encode])

theorem ldImm (x : Nibble) (kk : Byte) : Statement (.ldImm x kk) :=
  of_family ⟨"6xkk", 0xF000#16, 0x6000#16⟩ (by decide) rfl rfl (by decide) (fam := 0x6#4)
    (by simp [encode])

theorem addImm (x : Nibble) (kk : Byte) : Statement (.addImm x kk) :=
  of_family ⟨"7xkk", 0xF000#16, 0x7000#16⟩ (by decide) rfl rfl (by decide) (fam := 0x7#4)
    (by simp [encode])

theorem sneReg (x : Nibble) (y : Nibble) (low : Nibble) : Statement (.sneReg x y low) :=
  of_family ⟨"9xy0", 0xF000#16, 0x9000#16⟩ (by decide) rfl rfl (by decide) (fam := 0x9#4)
    (by simp [encode])

theorem ldI (nnn : Addr12) : Statement (.ldI nnn) :=
  of_family ⟨"Annn", 0xF000#16, 0xA000#16⟩ (by decide) rfl rfl (by decide) (fam := 0xA#4)
    (by simp [encode])

theorem famB (ignored : Addr12) : Statement (.famB ignored) :=
  of_family ⟨"Bnnn", 0xF000#16, 0xB000#16⟩ (by decide) rfl rfl (by decide) (fam := 0xB#4)
    (by simp [encode])

theorem famC (ignored : Addr12) : Statement (.famC ignored) :=
  of_family ⟨"Cxkk", 0xF000#16, 0xC000#16⟩ (by decide) rfl rfl (by decide) (fam := 0xC#4)
    (by simp [encode])

theorem drw (x : Nibble) (y : Nibble) (n : Nibble) : Statement (.drw x y n) :=
  of_family ⟨"Dxyn", 0xF000#16, 0xD000#16⟩ (by decide) rfl rfl (by decide) (fam := 0xD#4)
    (by simp [encode])

theorem famE (ignored : Addr12) : Statement (.famE ignored) :=
  of_family ⟨"Exkk", 0xF000#16, 0xE000#16⟩ (by decide) rfl rfl (by decide) (fam := 0xE#4)
    (by simp [encode])

theorem famF (ignored : Addr12) : Statement (.famF ignored) :=
  of_family ⟨"Fxkk", 0xF000#16, 0xF000#16⟩ (by decide) rfl rfl (by decide) (fam := 0xF#4)
    (by simp [encode])

theorem ldReg (x : Nibble) (y : Nibble) : Statement (.ldReg x y) :=
  of_alu ⟨"8xy0", 0xF00F#16, 0x8000#16⟩ (by decide) rfl rfl (by simp [encode]; decide)
    (by simp [encode])

theorem orReg (x : Nibble) (y : Nibble) : Statement (.orReg x y) :=
  of_alu ⟨"8xy1", 0xF00F#16, 0x8001#16⟩ (by decide) rfl rfl (by simp [encode]; decide)
    (by simp [encode])

theorem andReg (x : Nibble) (y : Nibble) : Statement (.andReg x y) :=
  of_alu ⟨"8xy2", 0xF00F#16, 0x8002#16⟩ (by decide) rfl rfl (by simp [encode]; decide)
    (by simp [encode])

theorem xorReg (x : Nibble) (y : Nibble) : Statement (.xorReg x y) :=
  of_alu ⟨"8xy3", 0xF00F#16, 0x8003#16⟩ (by decide) rfl rfl (by simp [encode]; decide)
    (by simp [encode])

theorem addReg (x : Nibble) (y : Nibble) : Statement (.addReg x y) :=
  of_alu ⟨"8xy4", 0xF00F#16, 0x8004#16⟩ (by decide) rfl rfl (by simp [encode]; decide)
    (by simp [encode])

theorem subReg (x : Nibble) (y : Nibble) : Statement (.subReg x y) :=
  of_alu ⟨"8xy5", 0xF00F#16, 0x8005#16⟩ (by decide) rfl rfl (by simp [encode]; decide)
    (by simp [encode])

theorem shrReg (x : Nibble) (y : Nibble) : Statement (.shrReg x y) :=
  of_alu ⟨"8xy6", 0xF00F#16, 0x8006#16⟩ (by decide) rfl rfl (by simp [encode]; decide)
    (by simp [encode])

theorem subnReg (x : Nibble) (y : Nibble) : Statement (.subnReg x y) :=
  of_alu ⟨"8xy7", 0xF00F#16, 0x8007#16⟩ (by decide) rfl rfl (by simp [encode]; decide)
    (by simp [encode])

theorem shlReg (x : Nibble) (y : Nibble) : Statement (.shlReg x y) :=
  of_alu ⟨"8xyE", 0xF00F#16, 0x800E#16⟩ (by decide) rfl rfl (by simp [encode]; decide)
    (by simp [encode])

theorem alu8 (ignored : Byte) : Statement (.alu8 ignored) :=
  of_alu ⟨"8xy8", 0xF00F#16, 0x8008#16⟩ (by decide) rfl rfl (by simp [encode]; decide)
    (by simp [encode])

theorem alu9 (ignored : Byte) : Statement (.alu9 ignored) :=
  of_alu ⟨"8xy9", 0xF00F#16, 0x8009#16⟩ (by decide) rfl rfl (by simp [encode]; decide)
    (by simp [encode])

theorem aluA (ignored : Byte) : Statement (.aluA ignored) :=
  of_alu ⟨"8xyA", 0xF00F#16, 0x800A#16⟩ (by decide) rfl rfl (by simp [encode]; decide)
    (by simp [encode])

theorem aluB (ignored : Byte) : Statement (.aluB ignored) :=
  of_alu ⟨"8xyB", 0xF00F#16, 0x800B#16⟩ (by decide) rfl rfl (by simp [encode]; decide)
    (by simp [encode])

theorem aluC (ignored : Byte) : Statement (.aluC ignored) :=
  of_alu ⟨"8xyC", 0xF00F#16, 0x800C#16⟩ (by decide) rfl rfl (by simp [encode]; decide)
    (by simp [encode])

theorem aluD (ignored : Byte) : Statement (.aluD ignored) :=
  of_alu ⟨"8xyD", 0xF00F#16, 0x800D#16⟩ (by decide) rfl rfl (by simp [encode]; decide)
    (by simp [encode])

theorem aluF (ignored : Byte) : Statement (.aluF ignored) :=
  of_alu ⟨"8xyF", 0xF00F#16, 0x800F#16⟩ (by decide) rfl rfl (by simp [encode]; decide)
    (by simp [encode])

end Sys2Proof.Laws.OnItsRow
end

