-- ==== Sys2Proof/Laws/State.lean ====
section
/-!
SUPPORT. One lemma per field per update of the state, and one lemma per named operation that says what it
does: the proofs cite these and unfold no record update.
-/

namespace Sys2Proof.Machine

variable (s : State) (x y : Nibble) (b c : Byte) (w : Word) (f : Fault)

/-! ## General registers -/

/-- A register read after a register write. -/
@[simp] theorem readV_writeV : readV (writeV s x b) y = if y = x then b else readV s y := by
  simp only [readV, writeV, Vector.getElem_set]
  by_cases h : x.toNat = y.toNat
  · have h' : y = x := (BitVec.eq_of_toNat_eq h).symm
    simp [h']
  · have h' : ¬ y = x := fun e => h (by rw [e])
    simp [h, h']

@[simp] theorem writeV_mem : (writeV s x b).mem = s.mem := rfl
@[simp] theorem writeV_i : (writeV s x b).i = s.i := rfl
@[simp] theorem writeV_pc : (writeV s x b).pc = s.pc := rfl
@[simp] theorem writeV_stack : (writeV s x b).stack = s.stack := rfl
@[simp] theorem writeV_sp : (writeV s x b).sp = s.sp := rfl
@[simp] theorem writeV_ir : (writeV s x b).ir = s.ir := rfl
@[simp] theorem writeV_fb : (writeV s x b).fb = s.fb := rfl
@[simp] theorem writeV_dirty : (writeV s x b).dirty = s.dirty := rfl
@[simp] theorem writeV_dt : (writeV s x b).dt = s.dt := rfl
@[simp] theorem writeV_div : (writeV s x b).div = s.div := rfl
@[simp] theorem writeV_fault : (writeV s x b).fault = s.fault := rfl
@[simp] theorem writeV_depth : (writeV s x b).depth = s.depth := rfl

/-- Registers that read the same are the same. -/
theorem regs_ext {s t : State} (h : ∀ r, readV t r = readV s r) : t.v = s.v := by
  apply Vector.ext
  intro k hk
  have := h (BitVec.ofNat 4 k)
  have e : (BitVec.ofNat 4 k).toNat = k := by simp; omega
  simpa [readV, e] using this

/-- Every register reads 0 right after reset (10_state.md R35). -/
@[simp] theorem readV_resetAt (depth : Option Nat) : readV (State.resetAt depth) x = 0 := by
  simp [readV, State.resetAt]

/-- A register is its field: updates of other fields do not touch it. -/
theorem readV_eq {s t : State} (h : t.v = s.v) (x : Nibble) : readV t x = readV s x := by
  simp [readV, h]

/-! ## The ALU's two writes (43_alu.md R120) -/

/-- Result, then flag: VF holds the flag even when it is the destination. -/
@[simp] theorem readV_resultThenFlag : readV (resultThenFlag x b c s) y =
    if y = vf then c else if y = x then b else readV s y := by
  simp [resultThenFlag]

/-- Flag, then result: the destination holds the result even when it is VF. -/
@[simp] theorem readV_flagThenResult : readV (flagThenResult x c b s) y =
    if y = x then b else if y = vf then c else readV s y := by
  simp [flagThenResult]

/-! ## The call stack -/

@[simp] theorem push_mem : (push s w).mem = s.mem := rfl
@[simp] theorem push_v : (push s w).v = s.v := rfl
@[simp] theorem push_i : (push s w).i = s.i := rfl
@[simp] theorem push_pc : (push s w).pc = s.pc := rfl
@[simp] theorem push_stack : (push s w).stack = writeCell s.stack s.sp w := rfl
@[simp] theorem push_sp : (push s w).sp = s.sp + 1 := rfl
@[simp] theorem push_ir : (push s w).ir = s.ir := rfl
@[simp] theorem push_fb : (push s w).fb = s.fb := rfl
@[simp] theorem push_dirty : (push s w).dirty = s.dirty := rfl
@[simp] theorem push_dt : (push s w).dt = s.dt := rfl
@[simp] theorem push_div : (push s w).div = s.div := rfl
@[simp] theorem push_fault : (push s w).fault = s.fault := rfl
@[simp] theorem push_depth : (push s w).depth = s.depth := rfl
@[simp] theorem popPc_mem : (popPc s).mem = s.mem := rfl
@[simp] theorem popPc_v : (popPc s).v = s.v := rfl
@[simp] theorem popPc_i : (popPc s).i = s.i := rfl
@[simp] theorem popPc_pc : (popPc s).pc = readCell s.stack (s.sp - 1) := rfl
@[simp] theorem popPc_stack : (popPc s).stack = s.stack := rfl
@[simp] theorem popPc_sp : (popPc s).sp = s.sp - 1 := rfl
@[simp] theorem popPc_ir : (popPc s).ir = s.ir := rfl
@[simp] theorem popPc_fb : (popPc s).fb = s.fb := rfl
@[simp] theorem popPc_dirty : (popPc s).dirty = s.dirty := rfl
@[simp] theorem popPc_dt : (popPc s).dt = s.dt := rfl
@[simp] theorem popPc_div : (popPc s).div = s.div := rfl
@[simp] theorem popPc_fault : (popPc s).fault = s.fault := rfl
@[simp] theorem popPc_depth : (popPc s).depth = s.depth := rfl

/-- The stack is full exactly when SP is the (bounded) STACK_DEPTH (10_state.md R26). -/
theorem stackFull_iff : stackFull s = true ↔ s.depth = some s.sp := by simp [stackFull]

/-- What a return takes back is what the call before it put there. -/
theorem popPc_push_pc : (popPc (push s w)).pc = w := by simp

/-! ## The program counter -/

@[simp] theorem advancePc_mem : (advancePc s).mem = s.mem := rfl
@[simp] theorem advancePc_v : (advancePc s).v = s.v := rfl
@[simp] theorem advancePc_i : (advancePc s).i = s.i := rfl
@[simp] theorem advancePc_pc : (advancePc s).pc = s.pc + 2 := rfl
@[simp] theorem advancePc_stack : (advancePc s).stack = s.stack := rfl
@[simp] theorem advancePc_sp : (advancePc s).sp = s.sp := rfl
@[simp] theorem advancePc_ir : (advancePc s).ir = s.ir := rfl
@[simp] theorem advancePc_fb : (advancePc s).fb = s.fb := rfl
@[simp] theorem advancePc_dirty : (advancePc s).dirty = s.dirty := rfl
@[simp] theorem advancePc_dt : (advancePc s).dt = s.dt := rfl
@[simp] theorem advancePc_div : (advancePc s).div = s.div := rfl
@[simp] theorem advancePc_fault : (advancePc s).fault = s.fault := rfl
@[simp] theorem advancePc_depth : (advancePc s).depth = s.depth := rfl
@[simp] theorem jumpTo_mem (n : Addr12) : (jumpTo n s).mem = s.mem := rfl
@[simp] theorem jumpTo_v (n : Addr12) : (jumpTo n s).v = s.v := rfl
@[simp] theorem jumpTo_i (n : Addr12) : (jumpTo n s).i = s.i := rfl
@[simp] theorem jumpTo_pc (n : Addr12) : (jumpTo n s).pc = zextAddr n := rfl
@[simp] theorem jumpTo_stack (n : Addr12) : (jumpTo n s).stack = s.stack := rfl
@[simp] theorem jumpTo_sp (n : Addr12) : (jumpTo n s).sp = s.sp := rfl
@[simp] theorem jumpTo_ir (n : Addr12) : (jumpTo n s).ir = s.ir := rfl
@[simp] theorem jumpTo_fb (n : Addr12) : (jumpTo n s).fb = s.fb := rfl
@[simp] theorem jumpTo_dirty (n : Addr12) : (jumpTo n s).dirty = s.dirty := rfl
@[simp] theorem jumpTo_dt (n : Addr12) : (jumpTo n s).dt = s.dt := rfl
@[simp] theorem jumpTo_div (n : Addr12) : (jumpTo n s).div = s.div := rfl
@[simp] theorem jumpTo_fault (n : Addr12) : (jumpTo n s).fault = s.fault := rfl
@[simp] theorem jumpTo_depth (n : Addr12) : (jumpTo n s).depth = s.depth := rfl

@[simp] theorem zextAddr_toNat (n : Addr12) : (zextAddr n).toNat = n.toNat := by
  have := n.isLt
  simp [zextAddr]
  omega

/-- Adding 2 to `pc` where FETCH succeeds does not wrap. -/
theorem advancePc_toNat {s : State} (h : s.pc.toNat ≤ 65533) :
    (advancePc s).pc.toNat = s.pc.toNat + 2 := by
  simp [BitVec.toNat_add]
  omega

/-! ## FETCH -/

@[simp] theorem latchOpcode_mem : (latchOpcode s).mem = s.mem := rfl
@[simp] theorem latchOpcode_v : (latchOpcode s).v = s.v := rfl
@[simp] theorem latchOpcode_i : (latchOpcode s).i = s.i := rfl
@[simp] theorem latchOpcode_pc : (latchOpcode s).pc = s.pc + 2 := rfl
@[simp] theorem latchOpcode_stack : (latchOpcode s).stack = s.stack := rfl
@[simp] theorem latchOpcode_sp : (latchOpcode s).sp = s.sp := rfl
@[simp] theorem latchOpcode_ir : (latchOpcode s).ir = readWord s.mem s.pc.toNat := rfl
@[simp] theorem latchOpcode_fb : (latchOpcode s).fb = s.fb := rfl
@[simp] theorem latchOpcode_dirty : (latchOpcode s).dirty = s.dirty := rfl
@[simp] theorem latchOpcode_dt : (latchOpcode s).dt = s.dt := rfl
@[simp] theorem latchOpcode_div : (latchOpcode s).div = s.div := rfl
@[simp] theorem latchOpcode_fault : (latchOpcode s).fault = s.fault := rfl
@[simp] theorem latchOpcode_depth : (latchOpcode s).depth = s.depth := rfl

theorem halted_eq_false {s : State} : halted s = false ↔ s.fault = none := by simp [halted]

theorem halted_eq_true {s : State} : halted s = true ↔ s.fault ≠ none := by
  simp [halted, Option.isSome_iff_ne_none]

theorem canFetch_iff {s : State} : canFetch s = true ↔ s.pc.toNat ≤ 4094 := by
  simp only [canFetch, decide_eq_true_eq, Config.memSize]
  omega

/-- Everything a FETCH can do: nothing, latch the opcode, or raise FetchRange. -/
theorem fetch_cases (s : State) :
    (s.fault ≠ none ∧ fetch s = .next s) ∨
    (s.fault = none ∧ s.pc.toNat ≤ 4094 ∧ fetch s = .next (latchOpcode s)) ∨
    (s.fault = none ∧ 4094 < s.pc.toNat ∧ fetch s = .next { s with fault := some .fetchRange }) := by
  unfold fetch
  by_cases h : s.fault = none
  · have hh : halted s = false := halted_eq_false.mpr h
    by_cases hc : canFetch s = true
    · exact .inr (.inl ⟨h, canFetch_iff.mp hc, by simp [hh, hc]⟩)
    · have : 4094 < s.pc.toNat := by rw [canFetch_iff] at hc; omega
      exact .inr (.inr ⟨h, this, by simp [hh, hc, raise]⟩)
  · exact .inl ⟨h, by simp [halted_eq_true.mpr h]⟩

/-! ## The timer -/

@[simp] theorem timerStep_mem : (timerStep s).mem = s.mem := by unfold timerStep; split <;> rfl
@[simp] theorem timerStep_v : (timerStep s).v = s.v := by unfold timerStep; split <;> rfl
@[simp] theorem timerStep_i : (timerStep s).i = s.i := by unfold timerStep; split <;> rfl
@[simp] theorem timerStep_pc : (timerStep s).pc = s.pc := by unfold timerStep; split <;> rfl
@[simp] theorem timerStep_stack : (timerStep s).stack = s.stack := by unfold timerStep; split <;> rfl
@[simp] theorem timerStep_sp : (timerStep s).sp = s.sp := by unfold timerStep; split <;> rfl
@[simp] theorem timerStep_ir : (timerStep s).ir = s.ir := by unfold timerStep; split <;> rfl
@[simp] theorem timerStep_fb : (timerStep s).fb = s.fb := by unfold timerStep; split <;> rfl
@[simp] theorem timerStep_dirty : (timerStep s).dirty = s.dirty := by unfold timerStep; split <;> rfl
@[simp] theorem timerStep_fault : (timerStep s).fault = s.fault := by unfold timerStep; split <;> rfl
@[simp] theorem timerStep_depth : (timerStep s).depth = s.depth := by unfold timerStep; split <;> rfl

/-- `DIV` counts mod 16. -/
@[simp] theorem timerStep_div : (timerStep s).div = s.div + 1 := by
  unfold timerStep
  split
  · next h => simp [h]
  · rfl

/-- `DT` after one timer step. -/
theorem timerStep_dt : (timerStep s).dt = if s.div = 15 ∧ s.dt ≠ 0 then s.dt - 1 else s.dt := by
  unfold timerStep
  by_cases h : s.div = 15
  · by_cases h' : s.dt = 0 <;> simp [h, h']
  · rw [if_neg h, if_neg (fun e => h e.1)]

/-! ## EXECUTE and TICK -/

/-- What EXECUTE does on a core that is not halted. -/
theorem execute_running {s : State} (h : s.fault = none) :
    execute s = afterRule (exec (decode s.ir) s) := by
  simp [execute, halted_eq_false.mpr h]

/-- What EXECUTE does on a halted core. -/
theorem execute_halted {s : State} (h : s.fault ≠ none) : execute s = .next s := by
  simp [execute, halted_eq_true.mpr h]

/-- After a rule that raised nothing, the timer steps. -/
theorem settle_running {s : State} (h : s.fault = none) : settle s = timerStep s := by
  simp [settle, halted_eq_false.mpr h]

/-- After a rule that raised a fault, nothing more happens. -/
theorem settle_halted {s : State} (h : s.fault ≠ none) : settle s = s := by
  simp [settle, halted_eq_true.mpr h]

@[simp] theorem afterRule_next : afterRule (.next s) = .next (settle s) := rfl

/-- The answer of EXECUTE is a next state just when the rule's is. -/
theorem afterRule_eq_next {r : Result} {t : State} :
    afterRule r = .next t ↔ ∃ u, r = .next u ∧ settle u = t := by
  cases r <;> simp [afterRule]

@[simp] theorem raise_eq : raise f s = .next { s with fault := some f } := rfl

/-- Everything a skip can do. -/
theorem skipIf_eq (k : Bool) : skipIf k s = .next (if k then advancePc s else s) := rfl

/-! ## The blit -/

@[simp] theorem blit_mem (ps : List Pixel) : (blit ps s).mem = s.mem := rfl
@[simp] theorem blit_i (ps : List Pixel) : (blit ps s).i = s.i := rfl
@[simp] theorem blit_pc (ps : List Pixel) : (blit ps s).pc = s.pc := rfl
@[simp] theorem blit_stack (ps : List Pixel) : (blit ps s).stack = s.stack := rfl
@[simp] theorem blit_sp (ps : List Pixel) : (blit ps s).sp = s.sp := rfl
@[simp] theorem blit_ir (ps : List Pixel) : (blit ps s).ir = s.ir := rfl
@[simp] theorem blit_fb (ps : List Pixel) : (blit ps s).fb = (toggleAll ps s.fb false).1 := rfl
@[simp] theorem blit_dirty (ps : List Pixel) : (blit ps s).dirty = true := rfl
@[simp] theorem blit_dt (ps : List Pixel) : (blit ps s).dt = s.dt := rfl
@[simp] theorem blit_div (ps : List Pixel) : (blit ps s).div = s.div := rfl
@[simp] theorem blit_fault (ps : List Pixel) : (blit ps s).fault = s.fault := rfl
@[simp] theorem blit_depth (ps : List Pixel) : (blit ps s).depth = s.depth := rfl

/-- The registers after a blit: VF holds the collision flag, the others stay. -/
@[simp] theorem readV_blit (ps : List Pixel) : readV (blit ps s) y =
    if y = vf then flagByte (toggleAll ps s.fb false).2 else readV s y :=
  readV_writeV s vf y _

/-- The pixels of a sprite are those it covers. -/
theorem mem_spritePixels {m : Memory} {i n : Nat} {a b : Byte} {p : Pixel} :
    p ∈ spritePixels m i a b n ↔ ∃ row < n, ∃ col < 8,
      spriteBit (readByte m (i + row)) col = true ∧ p = pixelAt a b col row := by
  simp only [spritePixels, rowPixels, List.mem_flatMap, List.mem_range, List.mem_filterMap,
    Option.ite_none_right_eq_some, Option.some.injEq]
  constructor
  · rintro ⟨row, hr, col, hc, hb, rfl⟩
    exact ⟨row, hr, col, hc, hb, rfl⟩
  · rintro ⟨row, hr, col, hc, hb, rfl⟩
    exact ⟨row, hr, col, hc, hb, rfl⟩

theorem spriteInMemory_iff {i : Word} {n : Nibble} :
    spriteInMemory i n = true ↔ n.toNat = 0 ∨ i.toNat + n.toNat ≤ 4096 := by
  simp only [spriteInMemory, Bool.or_eq_true, beq_iff_eq, decide_eq_true_eq, Config.memSize]

end Sys2Proof.Machine
end

