-- ==== Sys2Proof/Tests/Slice0.lean ====
section
/-!
SUPPORT. The model's own tests: ill-formed terms, words written out from the encodings of 30_encoding.md, one
tick at a time from the vectors of 95_test_vectors.md (the vector is named beside each), the host's
operations, and for every statement with hypotheses a state that meets them.
-/

namespace Sys2Proof.Tests

open Sys2Proof.Machine

/-! ## Helpers -/

/-- The reset state changed by `f`, with a word placed at its `pc`. -/
def start (f : State → State) (w : Nat) : State := (f State.reset).withFetchWord 16 w

/-- Set registers. -/
def regs (l : List (Nibble × Byte)) (s : State) : State := l.foldl (fun t c => writeV t c.1 c.2) s

/-- Set bytes of memory. -/
def bytes (l : List (Nat × Byte)) (s : State) : State :=
  { s with mem := l.foldl (fun m c => writeByte m c.1 c.2) s.mem }

/-- Set pixels that are clear. -/
def screen (l : List Pixel) : Framebuffer := l.foldl fbToggle Framebuffer.blank

/-- The columns of the set pixels of a row. -/
def lit (fb : Framebuffer) (row : Nat) : List Nat :=
  (List.range 64).filter fun col => fbRead fb (Fin.ofNat 64 col, Fin.ofNat 32 row)

/-- The stack with these live entries, oldest first. -/
def entries (l : List Word) (s : State) : State :=
  { s with stack := l ++ List.replicate (16 - l.length) 0, sp := l.length }

/-- Set `pc`. -/
def at' (a : Word) (s : State) : State := { s with pc := a }

/-- The same core built with another STACK_DEPTH. -/
def built (depth : Option Nat) (s : State) : State := { s with depth := depth }

/-- Set `I`. -/
def index (a : Word) (s : State) : State := { s with i := a }

/-- The answer is a next state with this property. -/
def after (r : Result) (p : State → Bool) : Bool :=
  match r with
  | .next t => p t
  | .fault _ => false
  | .refused _ => false

/-- The answer of a host operation is a next state and a value with this property. -/
def gives (r : HostResult) (p : State → HostValue → Bool) : Bool :=
  match r with
  | .next (t, v) => p t v
  | .fault _ => false
  | .refused _ => false

/-- The host operation is refused for this reason. -/
def refuses (r : HostResult) (e : Refusal) : Bool :=
  match r with
  | .next _ => false
  | .fault _ => false
  | .refused e' => e' == e

/-- The next state of an answer, and the reset state where there is none. -/
def nextOf (r : Result) : State :=
  match r with
  | .next t => t
  | .fault _ => State.reset
  | .refused _ => State.reset

theorem after_next {r : Result} {p : State → Bool} (h : after r p = true) :
    r = .next (nextOf r) ∧ p (nextOf r) = true := by
  cases r with
  | next t => exact ⟨rfl, h⟩
  | fault _ => cases h
  | refused _ => cases h

/-- No fault after the tick, and `pc` and VF as given. -/
def runs (s : State) (pc : Nat) (flag : Byte) : Bool :=
  after (step s) fun t => t.fault.isNone && t.pc.toNat == pc && readV t vf == flag

/-- The checks of the invariant that the stack depth decides. -/
def depthChecks (s : State) : Bool :=
  match s.depth with
  | none => true
  | some d => decide (1 ≤ d) && decide (s.sp ≤ d) && decide (s.stack.length = d)

/-- The invariant of a concrete state, by evaluation. -/
theorem inv_of {s : State} (h : (Memory.wf s.mem && decide (s.i.toNat ≤ 4095) &&
    decide (s.pc.toNat ≤ 4098) && depthChecks s &&
    decide (∀ k, k < s.sp → 2 ≤ (readCell s.stack k).toNat ∧ (readCell s.stack k).toNat ≤ 4096)) = true) :
    Inv s := by
  simp only [Bool.and_eq_true, decide_eq_true_eq] at h
  obtain ⟨⟨⟨⟨h1, h2⟩, h3⟩, h4⟩, h5⟩ := h
  have checks : ∀ d, s.depth = some d → (1 ≤ d ∧ s.sp ≤ d) ∧ s.stack.length = d := by
    intro d e
    simpa only [depthChecks, e, Bool.and_eq_true, decide_eq_true_eq] using h4
  exact ⟨h1, h2, h3, fun d e => (checks d e).1.1, fun d e => (checks d e).1.2, fun d e => (checks d e).2, h5⟩

/-! ## Well-formed terms (the one check of WellFormed) -/

theorem test_sys_is_not_cls : (Instr.sys 0x0E0#12).wf = false := by decide
theorem test_sys_is_not_ret : (Instr.sys 0x0EE#12).wf = false := by decide
theorem test_sys_beside_cls_and_ret : (Instr.sys 0x0DF#12).wf = true ∧ (Instr.sys 0x0E1#12).wf = true ∧
    (Instr.sys 0x0ED#12).wf = true ∧ (Instr.sys 0x0EF#12).wf = true := by decide

/-! ## Decoding: every constructor from a word written out from 30_encoding.md R72 to R77 -/

theorem test_decode_full_words : decode 0b0000000011100000#16 = .cls ∧
    decode 0b0000000011101110#16 = .ret ∧ decode 0b0000000011100001#16 = .sys 0x0E1#12 ∧
    decode 0b0000111011100000#16 = .sys 0xEE0#12 := by decide
theorem test_decode_control : decode 0b0001001000110100#16 = .jp 0x234#12 ∧
    decode 0b0010001100000000#16 = .call 0x300#12 ∧
    decode 0b0011001100101010#16 = .seImm 0x3#4 0x2A#8 ∧
    decode 0b0100000000000001#16 = .sneImm 0x0#4 0x01#8 ∧
    decode 0b0101000100100000#16 = .seReg 0x1#4 0x2#4 0x0#4 ∧
    decode 0b0101000100101111#16 = .seReg 0x1#4 0x2#4 0xF#4 ∧
    decode 0b1001000100100101#16 = .sneReg 0x1#4 0x2#4 0x5#4 := by decide
theorem test_decode_immediate : decode 0b0110101011111110#16 = .ldImm 0xA#4 0xFE#8 ∧
    decode 0b0111000011111111#16 = .addImm 0x0#4 0xFF#8 ∧
    decode 0b1010111111110001#16 = .ldI 0xFF1#12 := by decide
theorem test_decode_alu : decode 0b1000000100100000#16 = .ldReg 0x1#4 0x2#4 ∧
    decode 0b1000000100100001#16 = .orReg 0x1#4 0x2#4 ∧
    decode 0b1000000100100010#16 = .andReg 0x1#4 0x2#4 ∧
    decode 0b1000000100100011#16 = .xorReg 0x1#4 0x2#4 ∧
    decode 0b1000000100100100#16 = .addReg 0x1#4 0x2#4 ∧
    decode 0b1000000100100101#16 = .subReg 0x1#4 0x2#4 ∧
    decode 0b1000000100100110#16 = .shrReg 0x1#4 0x2#4 ∧
    decode 0b1000000100100111#16 = .subnReg 0x1#4 0x2#4 ∧
    decode 0b1000000100101110#16 = .shlReg 0x1#4 0x2#4 := by decide
theorem test_decode_draw : decode 0b1101111100010101#16 = .drw 0xF#4 0x1#4 0x5#4 := by decide
theorem test_decode_unassigned : decode 0b1000000100101000#16 = .alu8 0x12#8 ∧
    decode 0b1000000100101001#16 = .alu9 0x12#8 ∧ decode 0b1000000100101010#16 = .aluA 0x12#8 ∧
    decode 0b1000000100101011#16 = .aluB 0x12#8 ∧ decode 0b1000000100101100#16 = .aluC 0x12#8 ∧
    decode 0b1000000100101101#16 = .aluD 0x12#8 ∧ decode 0b1000000100101111#16 = .aluF 0x12#8 ∧
    decode 0b1011001100000000#16 = .famB 0x300#12 ∧ decode 0b1100001111111111#16 = .famC 0x3FF#12 ∧
    decode 0b1110000110011110#16 = .famE 0x19E#12 ∧ decode 0b1111001000010101#16 = .famF 0x215#12 := by
  decide
/-- The image bytes 0x60, 0x0A are the opcode 0x600A (20_memory.md R52), and the bytes after them are left. -/
theorem test_bytes_are_big_endian :
    decodeBytes [0x60#8, 0x0A#8, 0xA0#8] = .ok (.ldImm 0x0#4 0x0A#8, [0xA0#8]) := by decide
theorem test_truncated : decodeBytes [] = .error .truncated ∧ decodeBytes [0x60#8] = .error .truncated := by
  decide
theorem test_table_word : decodeTableWord 16 0x8125 = some (.subReg 0x1#4 0x2#4) := by decide

/-! ## Family 0 -/

/-- V-FULL-1. -/
theorem test_cls : after (step (start (fun s => { s with fb := screen [(0, 0), (63, 31)] }) 0x00E0))
    (fun t => lit t.fb 0 == [] && lit t.fb 31 == [] && t.dirty && t.pc == 0x202 && t.div == 1) = true := by decide
/-- V-FULL-3. -/
theorem test_ret : after (step (start (entries [0x206, 0x214]) 0x00EE))
    (fun t => t.pc == 0x214 && t.sp == 1 && readCell t.stack 0 == 0x206 && t.fault == none) = true := by
  decide
/-- V-FULL-4. -/
theorem test_ret_on_an_empty_stack : after (step (start id 0x00EE))
    (fun t => t.fault == some .stackUnderflow && t.pc == 0x202 && t.ir == 0x00EE && t.div == 0) = true := by
  decide
/-- V-FULL-7 and V-FULL-8. -/
theorem test_sys : after (step (start (fun s => { s with fb := screen [(1, 1)] }) 0x00E1))
      (fun t => lit t.fb 1 == [1] && !t.dirty) = true ∧
    after (step (start (regs [(0, 5)]) 0x0123)) (fun t => t.pc == 0x202 && readV t 0 == 5) = true := by
  decide

/-! ## Control transfer -/

/-- V-CTL-3: no fault at the jump. -/
theorem test_jp : after (step (start id 0x1FFF)) (fun t => t.pc == 0xFFF && t.fault == none) = true := by
  decide
/-- V-CTL-6: the return address is not range-checked. -/
theorem test_call : after (step (start (at' 0xFFE) 0x2FFE))
    (fun t => readCell t.stack 0 == 0x1000 && t.sp == 1 && t.pc == 0xFFE) = true := by decide
/-- V-CTL-5. -/
theorem test_call_on_a_full_stack :
    after (step (start (fun s => at' 0x202 (entries (List.replicate 16 0x222) s)) 0x2300))
      (fun t => t.fault == some .stackOverflow && t.pc == 0x204 && t.sp == 16 && t.div == 0) = true := by
  decide
/-- 60_exceptions.md R204: with STACK_DEPTH = 2 the third nested CALL faults, and on an unbounded stack the
seventeenth does not (00_scope.md R6, D2). -/
theorem test_call_at_other_depths :
    after (step (start (fun s => built (some 2) (entries [0x222, 0x222] s)) 0x2300))
      (fun t => t.fault == some .stackOverflow && t.sp == 2) = true ∧
    after (step (start (fun s => built none (entries (List.replicate 16 0x222) s)) 0x2300))
      (fun t => t.fault == none && t.sp == 17 && readCell t.stack 16 == 0x202 && t.pc == 0x300) = true := by
  decide
/-- The core that the host runs is the one with the default depth. -/
theorem test_core_has_the_default_depth : Sys2Proof.core = coreAt Config.defaultStackDepth := rfl

/-- V-CTL-9 and V-CTL-10: `pc` = 4098 and no fault. -/
theorem test_se_immediate : runs (start (regs [(0xF, 1)]) 0x3F01) 0x204 1 = true ∧
    runs (start (at' 0xFFE) 0x3000) 4098 0 = true := by decide
/-- V-CTL-11 and V-CTL-12. -/
theorem test_sne_immediate : runs (start id 0x4001) 0x204 0 = true ∧
    runs (start (regs [(0, 1)]) 0x4001) 0x202 0 = true := by decide
/-- V-CTL-14 and V-CTL-15. -/
theorem test_se_registers : runs (start (regs [(1, 7), (2, 8)]) 0x5120) 0x202 0 = true ∧
    runs (start (regs [(1, 7), (2, 7)]) 0x512F) 0x204 0 = true := by decide
/-- V-CTL-18 and V-CTL-19. -/
theorem test_sne_registers : runs (start (regs [(1, 7), (2, 7)]) 0x9120) 0x202 0 = true ∧
    runs (start (regs [(1, 7), (2, 8)]) 0x9125) 0x204 0 = true := by decide

/-! ## Immediates -/

/-- V-IMM-8: VF as an ordinary destination. -/
theorem test_ld_immediate : runs (start (regs [(0xF, 1)]) 0x6F05) 0x202 5 = true := by decide
/-- V-IMM-2: the sum wraps and VF stays. -/
theorem test_add_immediate : after (step (start (regs [(0, 0xFF), (0xF, 7)]) 0x7001))
    (fun t => readV t 0 == 0 && readV t 0xF == 7) = true := by decide
/-- V-IMM-6. -/
theorem test_ld_index : after (step (start id 0xAFFF)) (fun t => t.i == 0xFFF) = true := by decide

/-! ## The ALU -/

/-- A tick of family 8: the values left in V1 and VF. -/
def alu (l : List (Nibble × Byte)) (w : Nat) (r flag : Byte) : Bool :=
  after (step (start (regs l) w)) fun t => readV t 0x1 == r && readV t 0xF == flag

/-- V-ALU-1 and V-ALU-45. -/
theorem test_ld_register : alu [(1, 0x12), (2, 0x34), (0xF, 9)] 0x8120 0x34 9 = true ∧
    alu [(0xF, 0x33), (1, 0x44)] 0x8F10 0x44 0x44 = true := by decide
/-- V-ALU-2. -/
theorem test_or : alu [(1, 0xF0), (2, 0x0F), (0xF, 9)] 0x8121 0xFF 9 = true := by decide
/-- V-ALU-3. -/
theorem test_and : alu [(1, 0xF0), (2, 0x3C), (0xF, 9)] 0x8122 0x30 9 = true := by decide
/-- V-ALU-4. -/
theorem test_xor : alu [(1, 0xF0), (2, 0x3C), (0xF, 9)] 0x8123 0xCC 9 = true := by decide
/-- V-ALU-6 and V-ALU-7. -/
theorem test_add : alu [(1, 0xFF), (2, 0x01)] 0x8124 0x00 1 = true ∧
    alu [(1, 0x80), (2, 0x7F)] 0x8124 0xFF 0 = true := by decide
/-- V-ALU-30 and V-ALU-37: VF as destination and as operand. -/
theorem test_add_vf : alu [(0xF, 0xF0), (1, 0x20)] 0x8F14 0x20 1 = true ∧
    alu [(1, 0xFF), (0xF, 1)] 0x81F4 0x00 1 = true := by decide
/-- V-ALU-13 and V-ALU-14: strict. -/
theorem test_sub : alu [(1, 3), (2, 5)] 0x8125 0xFE 0 = true ∧
    alu [(1, 7), (2, 7)] 0x8125 0 0 = true := by decide
/-- V-ALU-32 and V-ALU-38. -/
theorem test_sub_vf : alu [(0xF, 9), (1, 3)] 0x8F15 3 6 = true ∧
    alu [(1, 5), (0xF, 2)] 0x81F5 3 1 = true := by decide
/-- V-ALU-21 and V-ALU-34. -/
theorem test_shr : alu [(1, 0xFF)] 0x8106 0x7F 1 = true ∧ alu [(0xF, 7)] 0x8F06 0 3 = true := by decide
/-- V-ALU-22: Vy is not used. -/
theorem test_shr_ignores_y : alu [(1, 4), (2, 0xFF)] 0x8126 2 0 = true := by decide
/-- V-ALU-23 and V-ALU-25. -/
theorem test_subn : alu [(1, 3), (2, 5)] 0x8127 2 1 = true ∧
    alu [(1, 7), (2, 7)] 0x8127 0 0 = true := by decide
/-- V-ALU-35 and V-ALU-39. -/
theorem test_subn_vf : alu [(0xF, 3), (1, 9)] 0x8F17 9 6 = true ∧
    alu [(1, 2), (0xF, 5)] 0x81F7 3 1 = true := by decide
/-- V-ALU-26 and V-ALU-36. -/
theorem test_shl : alu [(1, 0x81)] 0x810E 0x02 1 = true ∧ alu [(0xF, 0x81)] 0x8F0E 0 0x02 = true := by
  decide

/-! ## Drawing -/

/-- V-DRW-4: wrapped at the corner, most significant bit first. -/
theorem test_drw_wraps :
    after (step (start (fun s => bytes [(0x300, 0xFF)] (index 0x300 (regs [(0, 0xFF), (1, 0xFF)] s))) 0xD011))
      (fun t => lit t.fb 31 == [0, 1, 2, 3, 4, 5, 6, 63] && lit t.fb 0 == [] &&
        readV t 0xF == 0 && t.dirty) = true := by decide
/-- V-DRW-6: a collision on the second pixel. -/
theorem test_drw_collides :
    after (step (start (fun s => { bytes [(0x300, 0xC0)] (index 0x300 s) with fb := screen [(1, 0)] }) 0xD011))
      (fun t => lit t.fb 0 == [0] && readV t 0xF == 1 && t.dirty) = true := by decide
/-- V-DRW-15: the last byte at 4095 does not fault. -/
theorem test_drw_at_the_end_of_memory :
    after (step (start (fun s => bytes [(0xFFF, 0x80)] (index 0xFF1 s)) 0xD00F))
      (fun t => lit t.fb 14 == [0] && lit t.fb 13 == [] && t.fault == none) = true := by decide
/-- V-DRW-16. -/
theorem test_drw_past_the_end_of_memory : after (step (start (index 0xFF2) 0xD00F))
    (fun t => t.fault == some .indexRange && t.pc == 0x202 && !t.dirty && t.div == 0) = true := by decide

/-! ## The no-op words -/

/-- V-NOP-1 and V-NOP-2, and the other selectors. -/
theorem test_unassigned_alu : ([0x8128, 0x8129, 0x812A, 0x812B, 0x812C, 0x812D, 0x812F].all fun w =>
    alu [(1, 5), (2, 3), (0xF, 9)] w 5 9) = true := by decide
/-- V-NOP-3: not a jump. -/
theorem test_family_b : runs (start (regs [(0, 4)]) 0xB300) 0x202 0 = true := by decide
/-- V-NOP-4. -/
theorem test_family_c : after (step (start (regs [(3, 0x55)]) 0xC3FF)) (fun t => readV t 3 == 0x55) = true := by
  decide
/-- V-NOP-5: neither skips. -/
theorem test_family_e : runs (start id 0xE19E) 0x202 0 = true ∧ runs (start id 0xE1A1) 0x202 0 = true := by
  decide
/-- V-NOP-6 and V-NOP-7. -/
theorem test_family_f : after (step (start (regs [(2, 0x3C)]) 0xF215)) (fun t => t.dt == 0) = true ∧
    after (step (start (fun s => index 0x100 (regs [(2, 0x3C)] s)) 0xF21E)) (fun t => t.i == 0x100) = true := by
  decide

/-! ## FETCH, the timer, the host -/

/-- V-FETCH-1 and V-FETCH-6. -/
theorem test_fetch : after (fetch (start (at' 0xFFE) 0x6001)) (fun t => t.ir == 0x6001 && t.pc == 0x1000) = true ∧
    after (fetch (bytes [(0x200, 0x12), (0x201, 0x34)] State.reset)) (fun t => t.ir == 0x1234) = true := by
  decide
/-- V-FETCH-4 and V-FETCH-5. -/
theorem test_fetch_out_of_range : ([0xFFF#16, 0x1000#16, 0x1002#16].all fun a =>
    after (step (at' a State.reset)) fun t =>
      t.fault == some .fetchRange && t.pc == a && t.ir == 0 && t.div == 0) = true := by decide
/-- V-TMR-1 to V-TMR-5, by (DT, DIV) before and after. -/
theorem test_timer : ([(3, 14, 3, 15), (3, 15, 2, 0), (0, 15, 0, 0), (1, 15, 0, 0), (255, 15, 254, 0)].all
    fun c : Byte × Nibble × Byte × Nibble =>
      after (step (start (fun s => { s with dt := c.1, div := c.2.1 }) 0))
        fun t => t.dt == c.2.2.1 && t.div == c.2.2.2) = true := by decide
/-- V-TMR-6. -/
theorem test_timer_on_a_fault : after (step (start (fun s => { s with dt := 3, div := 15 }) 0x00EE))
    (fun t => t.dt == 3 && t.div == 15) = true := by decide
/-- LOAD copies upward from 0x200 (50_cycle_and_host.md R175). -/
theorem test_load : gives (hostOp (.load [0x60, 0x0A]) (raise .stackOverflow State.reset |> nextOf))
    (fun t _ => readByte t.mem 0x200 == 0x60 && readByte t.mem 0x201 == 0x0A && t.fault == none) = true := by
  decide
/-- POKE and READ_PIXEL at and past their bounds (R177, R180). -/
theorem test_host_bounds : gives (hostOp (.poke 4095 255) State.reset) (fun t _ => readByte t.mem 4095 == 0xFF) = true ∧
    refuses (hostOp (.poke 4096 0) State.reset) .pokeOutsideMemory = true ∧
    refuses (hostOp (.poke 0 256) State.reset) .pokeNotAByte = true ∧
    gives (hostOp (.readPixel 63 31) State.reset) (fun _ v => v == .bit false) = true ∧
    refuses (hostOp (.readPixel 64 0) State.reset) .pixelOutsideGrid = true ∧
    refuses (hostOp (.readPixel 0 32) State.reset) .pixelOutsideGrid = true := by decide
/-- FETCH returns the opcode, and nothing on a halted core (R171). -/
theorem test_fetch_returns_the_opcode :
    gives (hostOp .fetch (start id 0x600A)) (fun _ v => v == .opcode 0x600A) = true ∧
    gives (hostOp .fetch (at' 0xFFF State.reset)) (fun _ v => v == .nothing) = true := by decide

/-! ## Witnesses: for each statement with hypotheses, states and operands that meet them, per clause -/

/-- The tick of a concrete state that runs without a fault. -/
theorem steps {s : State} (h : after (step s) (fun t => t.fault.isNone) = true) :
    step s = .next (nextOf (step s)) ∧ (nextOf (step s)).fault = none := by
  obtain ⟨h1, h2⟩ := after_next h
  exact ⟨h1, by simpa using h2⟩

/-- The tick of a concrete state that ends with a fault. -/
theorem stops {s : State} (h : after (step s) (fun t => t.fault.isSome) = true) :
    step s = .next (nextOf (step s)) ∧ (nextOf (step s)).fault ≠ none := by
  obtain ⟨h1, h2⟩ := after_next h
  exact ⟨h1, fun e => by rw [e] at h2; cases h2⟩

/-- The rule of an instruction on a concrete state. -/
theorem execs {i : Instr} {s : State} {p : State → Bool} (h : after (exec i s) p = true) :
    ∃ t, exec i s = .next t ∧ p t = true := ⟨_, after_next h⟩

theorem ready_of {s : State} (h : (s.fault.isNone && decide (s.pc.toNat ≤ 4094)) = true) : Ready s := by
  simpa [Ready] using h

/-- A state halted by a fault. -/
def broken : State := { State.reset with fault := some .stackOverflow }

theorem witness_decode_of_encode : (Instr.sys 0x0E1#12).wf = true ∧ (Instr.drw 0xF#4 0xF#4 0xF#4).wf = true := by
  decide
theorem witness_first_matching_row :
    (⟨"00E0", 0xFFFF#16, 0x00E0#16⟩ : Row) ∈ opcodeRows ∧ (⟨"0nnn", 0xF000#16, 0x0000#16⟩ : Row) ∈ opcodeRows ∧
    (⟨"00E0", 0xFFFF#16, 0x00E0#16⟩ : Row).applies 0x00E0#16 = true ∧
    (⟨"0nnn", 0xF000#16, 0x0000#16⟩ : Row).applies 0x00E0#16 = true := by decide
/-- Words of a row at both ends of its fields, for every `Encodes` clause. -/
theorem witness_encodes : ([(0x1000#16, 0x1FFF#16), (0x2000#16, 0x2FFF#16), (0x3000#16, 0x3FFF#16),
      (0x4000#16, 0x4FFF#16), (0x5000#16, 0x5FFF#16), (0x6000#16, 0x6FFF#16), (0x7000#16, 0x7FFF#16),
      (0x9000#16, 0x9FFF#16), (0xA000#16, 0xAFFF#16), (0xD000#16, 0xDFFF#16)].all fun c : Word × Word =>
        c.1 &&& 0xF000#16 == c.1 && c.2 &&& 0xF000#16 == c.1) = true ∧
    ([(0x8000#16, 0x8FF0#16), (0x8001#16, 0x8FF1#16), (0x8002#16, 0x8FF2#16), (0x8003#16, 0x8FF3#16),
      (0x8004#16, 0x8FF4#16), (0x8005#16, 0x8FF5#16), (0x8006#16, 0x8FF6#16), (0x8007#16, 0x8FF7#16),
      (0x800E#16, 0x8FFE#16)].all fun c : Word × Word =>
        c.1 &&& 0xF00F#16 == c.1 && c.2 &&& 0xF00F#16 == c.1) = true := by decide
/-- Ready at the last address a word can be fetched from, and at 0. -/
theorem witness_step_runs : Ready (start (at' 0xFFE) 0x6001) ∧
    decodeBytes [readByte (start (at' 0xFFE) 0x6001).mem 0xFFE,
      readByte (start (at' 0xFFE) 0x6001).mem 0xFFF] = .ok (.ldImm 0x0#4 0x01#8, []) ∧
    Ready (start (at' 0) 0x00E0) := ⟨ready_of (by decide), by decide, ready_of (by decide)⟩
theorem witness_fetch : broken.fault ≠ none ∧ (at' 0xFFF State.reset).fault = none ∧
    4094 < (at' 0xFFF State.reset).pc.toNat ∧ Ready (at' 0xFFE State.reset) :=
  ⟨by decide, by decide, by decide, ready_of (by decide)⟩
theorem witness_execute : State.reset.fault = none ∧
    (∃ t r, hostOp .fetch State.reset = .next (t, r)) ∧ (∃ t r, hostOp .fetch broken = .next (t, r)) :=
  ⟨rfl, ⟨_, _, rfl⟩, ⟨_, _, rfl⟩⟩
theorem witness_halted : broken.fault ≠ none ∧ (List.replicate 3584 (0 : Byte)).length ≤ 3584 :=
  ⟨by decide, by rw [List.length_replicate]⟩

/-- The five cases of a tick of a core that is not halted: the four faults and none. -/
theorem witness_faults :
    (Inv (at' 0xFFF State.reset) ∧ step (at' 0xFFF State.reset) = .next (nextOf (step (at' 0xFFF State.reset))) ∧
      4094 < (at' 0xFFF State.reset).pc.toNat) ∧
    (Inv (start id 0x00EE) ∧ Faults (nextInstr (start id 0x00EE)) (start id 0x00EE) .stackUnderflow) ∧
    (Inv (start (entries (List.replicate 16 0x222)) 0x2300) ∧
      Faults (nextInstr (start (entries (List.replicate 16 0x222)) 0x2300))
        (start (entries (List.replicate 16 0x222)) 0x2300) .stackOverflow) ∧
    (Inv (start (index 0xFFF) 0xD002) ∧
      Faults (nextInstr (start (index 0xFFF) 0xD002)) (start (index 0xFFF) 0xD002) .indexRange) ∧
    (Inv (start (index 0xFFF) 0xD001) ∧ step (start (index 0xFFF) 0xD001) =
      .next (nextOf (step (start (index 0xFFF) 0xD001))) ∧
      ∀ f, ¬ Faults (nextInstr (start (index 0xFFF) 0xD001)) (start (index 0xFFF) 0xD001) f) := by
  refine ⟨⟨inv_of (by decide), (stops (by decide)).1, by decide⟩, ⟨inv_of (by decide), .inl (by decide)⟩,
    ⟨inv_of (by decide), .inr (.inl ⟨0x300, by decide, by decide, by decide⟩)⟩,
    ⟨inv_of (by decide), .inr (.inr ⟨0, 0, 2, by decide, by decide, by decide, by decide⟩)⟩,
    ⟨inv_of (by decide), (steps (by decide)).1, ?_⟩⟩
  have e : nextInstr (start (index 0xFFF) 0xD001) = .drw 0 0 1 := by decide
  intro f h
  rw [e] at h
  rcases h with ⟨h, _⟩ | ⟨_, h, _⟩ | ⟨x, y, n, h, _, h', _⟩
  · cases h
  · cases h
  · cases h
    exact absurd h' (by decide)

/-- A tick without a fault in each case of `pcAfterTick`: JP, CALL, RET, a skip taken and one not taken of each
kind, another word. -/
theorem witness_pc_through_a_tick : ([start id 0x1FFF, start (at' 0xFFE) 0x2000, start (entries [0x1000]) 0x00EE,
    start id 0x3000, start id 0x3001, start id 0x4001, start id 0x4000, start id 0x5010,
    start (regs [(1, 1)]) 0x5010, start (regs [(1, 1)]) 0x9010, start id 0x9010, start (at' 0xFFE) 0].all fun s =>
      s.fault.isNone && after (step s) fun t => t.fault.isNone) = true := by decide
theorem witness_timer_in_a_tick :
    step (start (fun s => { s with div := 15 }) 0) = .next (nextOf (step (start (fun s => { s with div := 15 }) 0))) ∧
    (nextOf (step (start (fun s => { s with div := 15 }) 0))).fault = none ∧
    (nextOf (step (start id 0x00EE))).fault ≠ none :=
  ⟨(steps (by decide)).1, (steps (by decide)).2, (stops (by decide)).2⟩

/-- States within the invariant whose tick changes what the invariant is about. -/
theorem witness_invariant_step :
    (Inv (start (at' 0xFFE) 0x3000) ∧ step (start (at' 0xFFE) 0x3000) = .next (nextOf (step (start (at' 0xFFE) 0x3000)))) ∧
    (Inv (start (at' 0xFFE) 0x2FFF) ∧ step (start (at' 0xFFE) 0x2FFF) = .next (nextOf (step (start (at' 0xFFE) 0x2FFF)))) ∧
    (Inv (start (entries [0x1000]) 0x00EE) ∧
      step (start (entries [0x1000]) 0x00EE) = .next (nextOf (step (start (entries [0x1000]) 0x00EE)))) :=
  ⟨⟨inv_of (by decide), (steps (by decide)).1⟩, ⟨inv_of (by decide), (steps (by decide)).1⟩,
    ⟨inv_of (by decide), (steps (by decide)).1⟩⟩
theorem witness_invariant_host : Inv State.reset ∧ HostOp.poke 4095 255 ≠ .fetch ∧ HostOp.poke 4095 255 ≠ .execute ∧
    (∃ t r, hostOp (.poke 4095 255) State.reset = .next (t, r)) ∧ (∃ t r, hostOp .tick State.reset = .next (t, r)) ∧
    ∃ t r, hostOp (.load [0x60]) broken = .next (t, r) :=
  ⟨inv_of (by decide), by decide, by decide, ⟨_, _, rfl⟩, ⟨_, _, rfl⟩, ⟨_, _, rfl⟩⟩
theorem witness_memory_writers : (∃ t r, hostOp .tick (start id 0xD001) = .next (t, r)) ∧
    (∃ t r, hostOp (.load [0x60]) (start id 0xD001) = .next (t, r)) ∧
    ∃ t r, hostOp (.poke 4095 1) (start id 0xD001) = .next (t, r) := ⟨⟨_, _, rfl⟩, ⟨_, _, rfl⟩, ⟨_, _, rfl⟩⟩
theorem witness_writers : writes .fb (.drw 0 0 1) = true ∧ writes .i (.drw 0 0 1) = false ∧
    ∃ t, exec (.drw 0 0 1) State.reset = .next t := ⟨by decide, by decide, _, rfl⟩
theorem witness_register_changes : (∃ t, exec (.ldImm 0x3 7) State.reset = .next t ∧
      (readV t 0x3 != readV State.reset 0x3) = true) ∧
    (∃ t, exec (.subReg 0x1 0x2) (regs [(1, 5)] State.reset) = .next t ∧
      (readV t 0xF != readV (regs [(1, 5)] State.reset) 0xF && t.fault == none) = true) ∧
    writesFlag (.subReg 0x1 0x2) ∧ destination (.subReg 0x1 0x2) ≠ some 0xF#4 :=
  ⟨execs (by decide), execs (by decide), .inr (.inl ⟨_, _, rfl⟩), by decide⟩
theorem witness_timer_and_dirty : Frame [.dt, .div, .dirty] (start id 0xD001)
      { start id 0xD001 with dt := 200, div := 15, dirty := true } ∧
    step (start id 0xD001) = .next (nextOf (step (start id 0xD001))) := by
  refine ⟨fun p hp => ?_, (steps (by decide)).1⟩
  cases p <;> first
    | exact absurd (by decide) hp
    | exact rfl
    | exact fun _ => rfl
theorem witness_dead_cells : Frame [.stack] (start (entries [0x206]) 0x00EE)
      { start (entries [0x206]) 0x00EE with stack := [0x206, 0x777] } ∧
    (∀ k < (start (entries [0x206]) 0x00EE).sp, readCell [0x206, 0x777] k =
      readCell (start (entries [0x206]) 0x00EE).stack k) ∧
    readCell [0x206, 0x777] 1 ≠ readCell (start (entries [0x206]) 0x00EE).stack 1 ∧
    step (start (entries [0x206]) 0x00EE) = .next (nextOf (step (start (entries [0x206]) 0x00EE))) := by
  refine ⟨fun p hp => ?_, by decide, by decide, (steps (by decide)).1⟩
  cases p <;> first
    | exact absurd (by decide) hp
    | exact rfl
    | exact fun _ => rfl
theorem witness_index_readers : (∀ x y n, Instr.ldI 0x300 ≠ .drw x y n) ∧ (∀ x y n, Instr.cls ≠ .drw x y n) ∧
    (∃ t, exec (.ldI 0x300) State.reset = .next t) ∧ ∃ t, exec .cls State.reset = .next t :=
  ⟨(fun _ _ _ h => by cases h), (fun _ _ _ h => by cases h), ⟨_, rfl⟩, ⟨_, rfl⟩⟩
theorem witness_ret : 0 < (entries [0x206] State.reset).sp ∧
    0 < (entries (List.replicate 16 0x222) State.reset).sp ∧ State.reset.sp = 0 := by decide
/-- A word of each class of no-ops, at the ends of the classes. -/
theorem witness_no_ops : NoOpWord 0x0000#16 ∧ NoOpWord 0x00EF#16 ∧ NoOpWord 0x0FFF#16 ∧ NoOpWord 0x8FF8#16 ∧
    NoOpWord 0x800F#16 ∧ NoOpWord 0xB000#16 ∧ NoOpWord 0xCFFF#16 ∧ NoOpWord 0xE19E#16 ∧ NoOpWord 0xFFFF#16 :=
  ⟨.inl (by decide), .inl (by decide), .inl (by decide), .inr (.inl (by decide)), .inr (.inl (by decide)),
    .inr (.inr (by decide)), .inr (.inr (by decide)), .inr (.inr (by decide)), .inr (.inr (by decide))⟩
theorem witness_self_jump : Ready (start id 0x1200) ∧ nextInstr (start id 0x1200) = .jp 0x200 ∧
    (0x200#12).toNat = (start id 0x1200).pc.toNat := ⟨ready_of (by decide), by decide, by decide⟩
theorem witness_call : (entries (List.replicate 15 0x222) State.reset).depth ≠
      some (entries (List.replicate 15 0x222) State.reset).sp ∧
    (State.resetAt (some 1)).depth ≠ some (State.resetAt (some 1)).sp ∧
    (built none (entries (List.replicate 16 0x222) State.reset)).depth ≠
      some (built none (entries (List.replicate 16 0x222) State.reset)).sp := by decide
theorem witness_call_full : (entries (List.replicate 16 0x222) State.reset).depth =
      some (entries (List.replicate 16 0x222) State.reset).sp ∧
    (built (some 1) (entries [0x222] State.reset)).depth = some (built (some 1) (entries [0x222] State.reset)).sp ∧
    (start (fun s => built none (entries (List.replicate 16 0x222) s)) 0x2300).depth = none ∧
    (start (fun s => built none (entries (List.replicate 16 0x222) s)) 0x2300).fault = none ∧
    step (start (fun s => built none (entries (List.replicate 16 0x222) s)) 0x2300) =
      .next (nextOf (step (start (fun s => built none (entries (List.replicate 16 0x222) s)) 0x2300))) :=
  ⟨by decide, by decide, by decide, by decide, (steps (by decide)).1⟩
/-- Depths at the boundary of R6, and invariant states of a bounded and of an unbounded core. -/
theorem witness_depths : (∀ d, some 1 = some d → 1 ≤ d) ∧ (∀ d, (none : Option Nat) = some d → 1 ≤ d) ∧
    Inv (State.resetAt (some 1)) ∧ Inv (start (fun s => built none (entries [0x222] s)) 0x2300) ∧
    step (start (fun s => built none (entries [0x222] s)) 0x2300) =
      .next (nextOf (step (start (fun s => built none (entries [0x222] s)) 0x2300))) ∧
    ∃ t r, hostOp (.load [0x60]) (State.resetAt (some 1)) = .next (t, r) :=
  ⟨(fun d e => by cases e; decide), (fun d e => by cases e), inv_of (by decide), inv_of (by decide),
    (steps (by decide)).1, _, _, rfl⟩

/-- One CALL and one RET: 0x200 calls 0x206, where a RET stands. -/
def callAndReturn : State := start (bytes [(0x206, 0x00), (0x207, 0xEE)]) 0x2206

theorem witness_balance : [(0x206 : Addr12)] ≠ [] ∧
    ∃ t, Ticks ([(0x206 : Addr12)].map Instr.call ++ List.replicate 1 Instr.ret) callAndReturn t :=
  ⟨by decide, _, .tick (ready_of (by decide)) (by decide) (steps (by decide)).1 (steps (by decide)).2
    (.tick (ready_of (by decide)) (by decide) (steps (by decide)).1 (steps (by decide)).2 (.done _))⟩
theorem witness_index_written : ∃ t, exec (.ldI 0xFFF) State.reset = .next t ∧ (t.i != State.reset.i) = true :=
  execs (by decide)
/-- Destinations beside VF and VF itself. -/
theorem witness_alu_destinations : (0xE#4 : Nibble) ≠ 0xF#4 ∧ (0x0#4 : Nibble) ≠ 0xE#4 ∧
    ∃ t, exec (.addReg 0xF 0x1) State.reset = .next t := ⟨by decide, by decide, _, rfl⟩
theorem witness_final_vf : 7 = (readV (regs [(0xF, 7)] State.reset) 0xF#4).toNat ∧
    0 = (readV (regs [(0xF, 7)] State.reset) 0x1#4).toNat ∧
    (∃ t, exec (.shlReg 0xF 0x1) (regs [(0xF, 7)] State.reset) = .next t) ∧
    ∃ t, exec (.ldReg 0xF 0x1) (regs [(0xF, 7)] State.reset) = .next t := ⟨by decide, by decide, ⟨_, rfl⟩, ⟨_, rfl⟩⟩

/-- A sprite of one row at 0x300 whose leftmost pixel is set, over a screen with that pixel set. -/
def overlap : State := { bytes [(0x300, 0x80)] (index 0x300 State.reset) with fb := screen [(0, 0)] }

theorem witness_draw : (0#4).toNat = 0 ∧ (index 0xFF1 State.reset).i.toNat + (15#4).toNat - 1 ≤ 4095 ∧
    CoveredBy overlap 0 1 1 (0, 0) ∧ fbRead overlap.fb (0, 0) = true ∧ ¬ CoveredBy overlap 0 1 1 (1, 0) ∧
    ∀ p, ¬ CoveredBy State.reset 0 1 0 p := by
  refine ⟨by decide, by decide, ⟨0, by decide, 0, by decide, by decide, by decide, by decide⟩, by decide, ?_, ?_⟩
  · rintro ⟨row, hr, col, hc, hb, h1, _⟩
    have hr : row < 1 := hr
    obtain rfl : row = 0 := by omega
    have h1 : 1 = (0 + col) % 64 := h1
    obtain rfl : col = 1 := by omega
    exact absurd hb (by decide)
  · rintro p ⟨row, hr, _⟩
    exact absurd hr (Nat.not_lt_zero row)
theorem witness_draw_past_the_end : 0 < (15#4).toNat ∧ 4095 < (index 0xFF2 State.reset).i.toNat + (15#4).toNat - 1 ∧
    (∃ t, exec (.drw 0 0 15) (index 0xFF2 State.reset) = .next t ∧ t.fault.isSome = true) ∧
    (index 0xFFF State.reset).i.toNat = 4095 ∧ 2 ≤ (2#4).toNat :=
  ⟨by decide, by decide, execs (by decide), by decide, by decide⟩
theorem witness_draw_twice : ∃ t u, exec (.drw 0 1 1) overlap = .next t ∧ exec (.drw 0 1 1) t = .next u ∧
    u.fault = none ∧ overlap.fault = none ∧ (0#4 : Nibble) ≠ 0xF#4 ∧ (1#4 : Nibble) ≠ 0xF#4 :=
  ⟨_, _, rfl, rfl, rfl, rfl, by decide, by decide⟩
theorem witness_load : 3584 < (List.replicate 3585 (0 : Byte)).length ∧
    (List.replicate 3584 (0 : Byte)).length ≤ 3584 := by
  rw [List.length_replicate, List.length_replicate]
  exact ⟨by decide, by decide⟩
theorem witness_poke : (4095 ≤ 4095 ∧ 255 ≤ 255) ∧ (4095 < 4096 ∨ 255 < 0) ∧ (4095 < 0 ∨ 255 < 256) := by decide
theorem witness_reads : 63 < 64 ∧ 31 < 32 ∧ (64 ≤ 64 ∨ 32 ≤ 0) ∧ (64 ≤ 0 ∨ 32 ≤ 32) ∧ State.reset.fault = none ∧
    broken.fault = some .stackOverflow := by decide
theorem witness_poked_word : Ready (at' 0xFFE State.reset) ∧ Ready (at' 0 State.reset) :=
  ⟨ready_of (by decide), ready_of (by decide)⟩
theorem witness_loaded_program : ([] : List Byte).length + 2 ≤ 3584 ∧
    ∃ t u, hostOp (.load (0x60 :: 0x0A :: [])) State.reset = .next (t, .nothing) ∧ step t = .next u :=
  ⟨by decide, _, _, rfl, (steps (by decide)).1⟩
theorem witness_placed_word : Ready (at' 0xFFE State.reset) ∧ Ready (at' 0x201 State.reset) :=
  ⟨ready_of (by decide), ready_of (by decide)⟩

end Sys2Proof.Tests
end

section
/-!
PROOFS of the statements about the core's scope (00_scope.md): the parameter STACK_DEPTH and the reset state.
First what each operation that answers in more than one way can answer, then the frame of the field `depth`,
then the settled statements.
-/

namespace Sys2Proof.Machine

variable {s t : State} {v : HostValue}

/-! ## What an instruction's rule can answer -/

/-- Everything a RET can do (R91, R203). -/
theorem execRet_cases (s : State) :
    (s.sp = 0 ∧ execRet s = .next { s with fault := some .stackUnderflow }) ∨
    (s.sp ≠ 0 ∧ execRet s = .next (popPc s)) := by
  by_cases h : s.sp = 0
  · exact .inl ⟨h, by simp [execRet, h]⟩
  · exact .inr ⟨h, by simp [execRet, h]⟩

/-- Everything a CALL can do (R101, R204, D2). -/
theorem execCall_cases (nnn : Addr12) (s : State) :
    (s.depth = some s.sp ∧ execCall nnn s = .next { s with fault := some .stackOverflow }) ∨
    (s.depth ≠ some s.sp ∧ execCall nnn s = .next (jumpTo nnn (push s s.pc))) := by
  by_cases h : s.depth = some s.sp
  · exact .inl ⟨h, by simp [execCall, (stackFull_iff s).mpr h]⟩
  · exact .inr ⟨h, by simp [execCall, mt (stackFull_iff s).mp h]⟩

/-- Everything a DRW can do (R141, R202, D8). -/
theorem execDrw_cases (x y n : Nibble) (s : State) :
    (spriteInMemory s.i n = false ∧ execDrw x y n s = .next { s with fault := some .indexRange }) ∨
    (spriteInMemory s.i n = true ∧ execDrw x y n s =
      .next (blit (spritePixels s.mem s.i.toNat (readV s x) (readV s y) n.toNat) s)) := by
  cases h : spriteInMemory s.i n with
  | false => exact .inl ⟨rfl, by simp [execDrw, h]⟩
  | true => exact .inr ⟨rfl, by simp [execDrw, h]⟩

/-! ## What TICK and the host's operations can answer -/

/-- A TICK is a FETCH and then an EXECUTE (R173). -/
theorem step_eq_next : step s = .next t ↔ ∃ u, fetch s = .next u ∧ execute u = .next t := by
  unfold step tick
  cases fetch s <;> simp

theorem silently_eq_next {r : Result} : silently r = .next (t, v) ↔ r = .next t ∧ v = .nothing := by
  cases r <;> simp [silently, eq_comm]

theorem hostFetch_eq_next : hostFetch s = .next (t, v) ↔
    fetch s = .next t ∧ v = if halted t then .nothing else .opcode t.ir := by
  unfold hostFetch
  cases fetch s with
  | next u =>
    simp only [Host.Outcome.next.injEq, Prod.mk.injEq]
    exact and_congr_right fun e => by rw [e, eq_comm]
  | fault f => simp
  | refused e => simp

/-- A LOAD that is not refused (R175, D15). -/
theorem hostLoad_eq_next {image : List Byte} : hostLoad image s = .next (t, v) ↔
    image.length ≤ Config.progMax ∧ t = loaded s.depth image ∧ v = .nothing := by
  by_cases h : image.length ≤ Config.progMax <;> simp [hostLoad, h, eq_comm]

/-- A POKE that is not refused (R180, D16). -/
theorem hostPoke_eq_next {addr b : Nat} : hostPoke addr b s = .next (t, v) ↔
    addr < Config.memSize ∧ b < 256 ∧
      t = { s with mem := writeByte s.mem addr (BitVec.ofNat 8 b) } ∧ v = .nothing := by
  by_cases ha : addr < Config.memSize
  · by_cases hb : b < 256 <;> simp [hostPoke, ha, hb, eq_comm]
  · simp [hostPoke, ha]

/-- A READ_PIXEL that is not refused changes nothing (R177). -/
theorem hostReadPixel_state {px py : Nat} (h : hostReadPixel px py s = .next (t, v)) : t = s := by
  unfold hostReadPixel at h
  split at h
  · split at h
    · cases h; rfl
    · cases h
  · cases h

/-! ## Nothing writes STACK_DEPTH (R6, log 1) -/

@[simp] theorem loaded_depth (depth : Option Nat) (image : List Byte) :
    (loaded depth image).depth = depth := rfl

@[simp] theorem settle_depth (s : State) : (settle s).depth = s.depth := by
  unfold settle
  split
  · rfl
  · exact timerStep_depth s

theorem fetch_depth (h : fetch s = .next t) : t.depth = s.depth := by
  obtain ⟨-, e⟩ | ⟨-, -, e⟩ | ⟨-, -, e⟩ := fetch_cases s <;> cases e.symm.trans h <;> rfl

theorem skipIf_depth {c : Bool} (h : skipIf c s = .next t) : t.depth = s.depth := by
  cases c <;> cases h <;> rfl

/-- Three rules answer in two ways and the skips in one of two states; every other rule answers one update
of fields other than `depth`. -/
theorem exec_depth {i : Instr} (h : exec i s = .next t) : t.depth = s.depth := by
  cases i with
  | ret => obtain ⟨-, e⟩ | ⟨-, e⟩ := execRet_cases s <;> cases e.symm.trans h <;> rfl
  | call nnn => obtain ⟨-, e⟩ | ⟨-, e⟩ := execCall_cases nnn s <;> cases e.symm.trans h <;> rfl
  | drw x y n => obtain ⟨-, e⟩ | ⟨-, e⟩ := execDrw_cases x y n s <;> cases e.symm.trans h <;> rfl
  | seImm x kk => exact skipIf_depth h
  | sneImm x kk => exact skipIf_depth h
  | seReg x y low => exact skipIf_depth h
  | sneReg x y low => exact skipIf_depth h
  | _ => cases h; rfl

theorem execute_depth (h : execute s = .next t) : t.depth = s.depth := by
  by_cases hf : s.fault = none
  · rw [execute_running hf] at h
    obtain ⟨u, hu, rfl⟩ := afterRule_eq_next.mp h
    rw [settle_depth, exec_depth hu]
  · rw [execute_halted hf] at h
    cases h; rfl

theorem step_depth (h : step s = .next t) : t.depth = s.depth := by
  obtain ⟨u, hu, ht⟩ := step_eq_next.mp h
  rw [execute_depth ht, fetch_depth hu]

/-- Settles O53, operation by operation: LOAD builds its state with the depth of the old one, FETCH, EXECUTE
and TICK keep the field, and no other operation changes more than DIRTY or a byte of memory. -/
theorem theStackDepthNeverChanges : Obligations.TheStackDepthNeverChanges := by
  intro op s t r h
  cases op with
  | load image =>
    obtain ⟨-, rfl, -⟩ := hostLoad_eq_next.mp h
    exact loaded_depth s.depth image
  | fetch => exact fetch_depth (hostFetch_eq_next.mp h).1
  | execute => exact execute_depth (silently_eq_next.mp h).1
  | tick => exact step_depth (silently_eq_next.mp h).1
  | poke addr b =>
    obtain ⟨-, -, rfl, -⟩ := hostPoke_eq_next.mp h
    rfl
  | readPixel px py => rw [hostReadPixel_state h]
  | readDirty => cases h; rfl
  | clearDirty => cases h; rfl
  | readDt => cases h; rfl
  | readFault => cases h; rfl

/-! ## The reset state (R35, R230) -/

/-- The reset state meets R33 at every STACK_DEPTH that R6 allows. -/
theorem inv_resetAt {depth : Option Nat} (built : ∀ d, depth = some d → 1 ≤ d) :
    Inv (State.resetAt depth) where
  memory := reset_mem_wf depth
  index := Nat.zero_le 4095
  counter := show (BitVec.ofNat 16 Config.progBase).toNat ≤ 4098 by decide
  built := built
  depth d _ := Nat.zero_le d
  cells d hd := by
    have hd : depth = some d := hd
    simp [State.resetAt, hd]
  entries k hk := absurd hk (Nat.not_lt_zero k)

/-- The default STACK_DEPTH is 16 (R6). -/
theorem reset_eq_resetAt : State.reset = State.resetAt (some 16) := rfl

/-- Settles O14: the default depth 16 is one of the depths of `inv_resetAt`. -/
theorem invariantHoldsAtReset : Obligations.InvariantHoldsAtReset := by
  refine ⟨?_, fun depth => inv_resetAt⟩
  rw [reset_eq_resetAt]
  exact inv_resetAt fun d hd => by cases hd; decide

/-- Copying no image leaves the reset state. -/
theorem loaded_nil (depth : Option Nat) : loaded depth [] = State.resetAt depth := rfl

/-- Settles O46: LOAD of the empty image is not refused, and it copies nothing. -/
theorem resetIsLoadOfTheEmptyImage : Obligations.ResetIsLoadOfTheEmptyImage :=
  ⟨fun s => hostLoad_eq_next.mpr ⟨Nat.zero_le _, (loaded_nil s.depth).symm, rfl⟩, reset_eq_resetAt⟩

end Sys2Proof.Machine
end

section
/-!
PROOFS of the statements about the state (10_state.md): the frame of each named operation and what an
instruction's rule can do to the state; the table "written by" of R20 and the registers; the invariant of R33;
the parts that no instruction reads.
-/

namespace Sys2Proof.Machine

variable {s t u v : State} {p : Part} {W D : List Part} {i : Instr}

/-! ## Agreement on a part -/

theorem agree_refl (p : Part) (s : State) : agree p s s := by
  cases p <;> simp [agree]

theorem agree_symm (h : agree p s t) : agree p t s := by
  cases p with
  | mem => exact fun a => (h a).symm
  | v => exact fun r => (h r).symm
  | stack => exact fun k => (h k).symm
  | fb => exact fun q => (h q).symm
  | _ => exact Eq.symm h

theorem agree_trans (h : agree p s t) (h' : agree p t u) : agree p s u := by
  cases p with
  | mem => exact fun a => (h' a).trans (h a)
  | v => exact fun r => (h' r).trans (h r)
  | stack => exact fun k => (h' k).trans (h k)
  | fb => exact fun q => (h' q).trans (h q)
  | _ => exact Eq.trans h' h

/-! ## The frame of each update -/

/-- A frame, part by part. -/
theorem frame_iff : Frame W s t ↔
    (.mem ∉ W → agree .mem s t) ∧ (.v ∉ W → agree .v s t) ∧ (.i ∉ W → agree .i s t) ∧
    (.pc ∉ W → agree .pc s t) ∧ (.stack ∉ W → agree .stack s t) ∧ (.sp ∉ W → agree .sp s t) ∧
    (.ir ∉ W → agree .ir s t) ∧ (.fb ∉ W → agree .fb s t) ∧ (.dirty ∉ W → agree .dirty s t) ∧
    (.dt ∉ W → agree .dt s t) ∧ (.div ∉ W → agree .div s t) ∧ (.fault ∉ W → agree .fault s t) ∧
    (.depth ∉ W → agree .depth s t) := by
  constructor
  · exact fun h => ⟨h _, h _, h _, h _, h _, h _, h _, h _, h _, h _, h _, h _, h _⟩
  · rintro ⟨mem, v, i, pc, stack, sp, ir, fb, dirty, dt, div, fault, depth⟩ p
    cases p <;> assumption

theorem frame_setV (s : State) (regs : RegFile) : Frame [.v] s { s with v := regs } := by
  simp [frame_iff, agree]

theorem frame_setI (s : State) (w : Word) : Frame [.i] s { s with i := w } := by
  simp [frame_iff, agree, readV]

theorem frame_setPc (s : State) (w : Word) : Frame [.pc] s { s with pc := w } := by
  simp [frame_iff, agree, readV]

theorem frame_setFault (s : State) (f : Option Fault) : Frame [.fault] s { s with fault := f } := by
  simp [frame_iff, agree, readV]

theorem frame_setScreen (s : State) (fb : Framebuffer) (b : Bool) :
    Frame [.fb, .dirty] s { s with fb := fb, dirty := b } := by
  simp [frame_iff, agree, readV]

theorem frame_push (s : State) (w : Word) : Frame [.stack, .sp] s (push s w) := by
  simp [frame_iff, agree, readV]

theorem frame_popPc (s : State) : Frame [.sp, .pc] s (popPc s) := by
  simp [frame_iff, agree, readV]

theorem frame_latchOpcode (s : State) : Frame [.ir, .pc] s (latchOpcode s) := by
  simp [frame_iff, agree, readV]

theorem frame_timerStep (s : State) : Frame [.div, .dt] s (timerStep s) := by
  simp [frame_iff, agree, readV]

theorem Frame.trans {W' : List Part} (h : Frame W s t) (h' : Frame W' t u) : Frame (W ++ W') s u := by
  intro p hp
  rw [List.mem_append, not_or] at hp
  exact agree_trans (h p hp.1) (h' p hp.2)

theorem frame_writeV (s : State) (x : Nibble) (b : Byte) : Frame [.v] s (writeV s x b) := frame_setV s _

theorem frame_jumpTo (s : State) (nnn : Addr12) : Frame [.pc] s (jumpTo nnn s) := frame_setPc s _

theorem frame_advancePc (s : State) : Frame [.pc] s (advancePc s) := frame_setPc s _

theorem frame_blit (s : State) (ps : List Pixel) : Frame [.v, .fb, .dirty] s (blit ps s) :=
  (frame_writeV s _ _).trans (frame_setScreen _ _ _)

/-! ## What an instruction's rule can do to the state -/

/-- R20 lets the instruction write each of the parts. -/
def WritesAll (i : Instr) (W : List Part) : Prop := (W.all fun q => writes q i) = true

/-- A part that an instruction does not write is outside a frame of parts that it writes. -/
theorem Frame.of_writes (h : Frame W s t) (w : WritesAll i W) (hp : writes p i = false) : agree p s t :=
  h p fun hmem => by simp [List.all_eq_true.mp w p hmem] at hp

/-- The updates of the state that the rules of the instructions are made of, each with the parts that R20 lets
the instruction write. -/
inductive Effect (i : Instr) (s : State) : State → Prop where
  /-- The no-op words, and a skip that is not taken. -/
  | nothing : Effect i s s
  /-- The fault that RET, CALL or DRW raises. -/
  | fault (f : Fault) (w : WritesAll i [.fault]) : Effect i s { s with fault := some f }
  /-- The loads and the ALU. -/
  | regs (regs : RegFile) (w : WritesAll i [.v]) : Effect i s { s with v := regs }
  | index (nnn : Addr12) (w : WritesAll i [.i]) : Effect i s { s with i := zextAddr nnn }
  /-- A skip that is taken. -/
  | skip (w : WritesAll i [.pc]) : Effect i s (advancePc s)
  | jump (nnn : Addr12) (w : WritesAll i [.pc]) : Effect i s (jumpTo nnn s)
  | call (nnn : Addr12) (room : s.depth ≠ some s.sp) (w : WritesAll i [.stack, .sp, .pc]) :
      Effect i s (jumpTo nnn (push s s.pc))
  | ret (live : s.sp ≠ 0) (w : WritesAll i [.sp, .pc]) : Effect i s (popPc s)
  | clear (w : WritesAll i [.fb, .dirty]) : Effect i s { s with fb := fbClear, dirty := true }
  | draw (ps : List Pixel) (w : WritesAll i [.v, .fb, .dirty]) : Effect i s (blit ps s)

theorem skipIf_effect {c : Bool} (w : WritesAll i [.pc]) (h : skipIf c s = .next t) : Effect i s t := by
  cases c with
  | false => cases h; exact .nothing
  | true => cases h; exact .skip w

/-- Everything an instruction's rule can do. -/
theorem exec_effect (h : exec i s = .next t) : Effect i s t := by
  cases i with
  | cls => cases h; exact .clear rfl
  | ret =>
    obtain ⟨-, e⟩ | ⟨live, e⟩ := execRet_cases s
    · cases e.symm.trans h; exact .fault _ rfl
    · cases e.symm.trans h; exact .ret live rfl
  | call nnn =>
    obtain ⟨-, e⟩ | ⟨room, e⟩ := execCall_cases nnn s
    · cases e.symm.trans h; exact .fault _ rfl
    · cases e.symm.trans h; exact .call nnn room rfl
  | drw x y n =>
    obtain ⟨-, e⟩ | ⟨-, e⟩ := execDrw_cases x y n s
    · cases e.symm.trans h; exact .fault _ rfl
    · cases e.symm.trans h; exact .draw _ rfl
  | jp nnn => cases h; exact .jump nnn rfl
  | seImm | sneImm | seReg | sneReg => exact skipIf_effect rfl h
  | ldI nnn => cases h; exact .index nnn rfl
  | ldImm | addImm | ldReg | orReg | andReg | xorReg | addReg | subReg | shrReg | subnReg | shlReg =>
    cases h; exact .regs _ rfl
  | sys | alu8 | alu9 | aluA | aluB | aluC | aluD | aluF | famB | famC | famE | famF =>
    cases h; exact .nothing

/-! ## The table of R20 -/

theorem exec_agree (h : exec i s = .next t) (hp : writes p i = false) : agree p s t := by
  cases exec_effect h with
  | nothing => exact agree_refl p s
  | fault f w => exact (frame_setFault s _).of_writes w hp
  | regs regs w => exact (frame_setV s _).of_writes w hp
  | index nnn w => exact (frame_setI s _).of_writes w hp
  | skip w => exact (frame_advancePc s).of_writes w hp
  | jump nnn w => exact (frame_jumpTo s nnn).of_writes w hp
  | call nnn room w => exact ((frame_push s _).trans (frame_jumpTo _ nnn)).of_writes w hp
  | ret live w => exact (frame_popPc s).of_writes w hp
  | clear w => exact (frame_setScreen s _ _).of_writes w hp
  | draw ps w => exact (frame_blit s ps).of_writes w hp

/-- Settles O18: each update that a rule is made of keeps to its frame, and the frame to the table. -/
theorem eachElementHasItsWriters : Obligations.EachElementHasItsWriters :=
  fun _ _ _ _ => exec_agree

/-! ## Registers (R22, R23) -/

theorem readV_writeV_of_ne {x r : Nibble} {b : Byte} (h : r ≠ x) : readV (writeV s x b) r = readV s r := by
  simp [h]

/-- The two writes of an ALU instruction with a flag leave every register but the destination and VF, in
either order (R120). -/
theorem readV_resultThenFlag_of_ne {x r : Nibble} {b c : Byte} (hx : r ≠ x) (hf : r ≠ vf) :
    readV (resultThenFlag x b c s) r = readV s r := by
  simp [hx, hf]

theorem readV_flagThenResult_of_ne {x r : Nibble} {b c : Byte} (hx : r ≠ x) (hf : r ≠ vf) :
    readV (flagThenResult x c b s) r = readV s r := by
  simp [hx, hf]

/-- A register that is neither the destination nor a flag stays. -/
theorem exec_readV {r : Nibble} (h : exec i s = .next t) (hd : destination i ≠ some r)
    (hf : writesFlag i → r ≠ vf) : readV t r = readV s r := by
  cases i with
  | ldImm | addImm | ldReg | orReg | andReg | xorReg =>
    cases h
    exact readV_writeV_of_ne fun e => hd (congrArg some e.symm)
  | addReg =>
    cases h
    exact readV_resultThenFlag_of_ne (fun e => hd (congrArg some e.symm)) (hf (by simp [writesFlag]))
  | subReg | shrReg | subnReg | shlReg =>
    cases h
    exact readV_flagThenResult_of_ne (fun e => hd (congrArg some e.symm)) (hf (by simp [writesFlag]))
  | drw x y n =>
    obtain ⟨-, e⟩ | ⟨-, e⟩ := execDrw_cases x y n s
    · cases e.symm.trans h; rfl
    · cases e.symm.trans h
      exact readV_writeV_of_ne (hf (by simp [writesFlag]))
  | _ => exact exec_agree (p := .v) h rfl r

theorem flagByte_eq_zero_or_one (c : Bool) : flagByte c = 0 ∨ flagByte c = 1 := by
  cases c <;> simp [flagByte]

theorem readV_vf_resultThenFlag {x : Nibble} {b c : Byte} : readV (resultThenFlag x b c s) vf = c := by
  simp

theorem readV_vf_flagThenResult {x : Nibble} {b c : Byte} (hx : vf ≠ x) :
    readV (flagThenResult x c b s) vf = c := by
  simp [hx]

/-- Where VF is not the destination, each of the six instructions leaves a flag in it. -/
theorem exec_flag (h : exec i s = .next t) (hi : writesFlag i) (ht : t.fault = none)
    (hd : destination i ≠ some vf) : ∃ c, readV t vf = flagByte c := by
  cases i with
  | addReg => cases h; exact ⟨_, readV_vf_resultThenFlag⟩
  | subReg | shrReg | subnReg | shlReg =>
    cases h
    exact ⟨_, readV_vf_flagThenResult fun e => hd (congrArg some e.symm)⟩
  | drw x y n =>
    obtain ⟨-, e⟩ | ⟨-, e⟩ := execDrw_cases x y n s
    · cases e.symm.trans h; cases ht
    · cases e.symm.trans h
      exact ⟨_, readV_writeV s vf vf _⟩
  | _ => simp [writesFlag] at hi

/-- Settles O19: a register that changes is the destination or a flag (`exec_readV`, turned round), and a
flag is a byte of `flagByte`. -/
theorem registersChangeAsDestinationOrFlag : Obligations.RegistersChangeAsDestinationOrFlag := by
  intro i s t r h
  constructor
  · intro changed
    by_contra hno
    obtain ⟨hd, hf⟩ := not_or.mp hno
    exact changed (exec_readV h hd fun hi e => hf ⟨e, hi⟩)
  · intro hi _ ht hd
    obtain ⟨c, hc⟩ := exec_flag h hi ht hd
    exact hc ▸ flagByte_eq_zero_or_one c

/-! ## The index register (R24) -/

theorem skipIf_setI {c : Bool} {w : Word} (h : skipIf c s = .next t) :
    skipIf c { s with i := w } = .next { t with i := w } := by
  cases c <;> cases h <;> rfl

/-- Settles O22. A rule other than DRW answers the same update of the state with another `I`; RET and CALL
decide between their two answers by SP and STACK_DEPTH, the skips by registers. -/
theorem onlyDrwReadsTheIndexRegister : Obligations.OnlyDrwReadsTheIndexRegister := by
  intro i s t w hi h
  cases i with
  | drw x y n => exact absurd rfl (hi x y n)
  | ret =>
    obtain ⟨empty, e⟩ | ⟨live, e⟩ := execRet_cases s
    · cases e.symm.trans h; exact if_pos empty
    · cases e.symm.trans h; exact if_neg live
  | call nnn =>
    obtain ⟨full, e⟩ | ⟨room, e⟩ := execCall_cases nnn s
    · cases e.symm.trans h; exact if_pos ((stackFull_iff s).mpr full)
    · cases e.symm.trans h; exact if_neg (mt (stackFull_iff s).mp room)
  | seImm | sneImm | seReg | sneReg => exact skipIf_setI h
  | _ => cases h; rfl

/-! ## A TICK as FETCH and the rule of the fetched instruction (R173) -/

/-- Everything a TICK can do: nothing on a halted core, the fault of FETCH, or the rule of the instruction at
`pc` and what EXECUTE adds after it. -/
theorem step_cases (h : step s = .next t) :
    (s.fault ≠ none ∧ t = s) ∨
    (s.fault = none ∧ 4094 < s.pc.toNat ∧ t = { s with fault := some .fetchRange }) ∨
    (Ready s ∧ ∃ u, exec (nextInstr s) (latchOpcode s) = .next u ∧ t = settle u) := by
  obtain ⟨f, hf, he⟩ := step_eq_next.mp h
  obtain ⟨halt, e⟩ | ⟨run, hpc, e⟩ | ⟨run, hpc, e⟩ := fetch_cases s <;> cases e.symm.trans hf
  · rw [execute_halted halt] at he
    cases he
    exact .inl ⟨halt, rfl⟩
  · rw [execute_running (s := latchOpcode s) run] at he
    obtain ⟨u, hu, rfl⟩ := afterRule_eq_next.mp he
    exact .inr (.inr ⟨⟨run, hpc⟩, u, hu, rfl⟩)
  · rw [execute_halted (by simp)] at he
    cases he
    exact .inr (.inl ⟨run, hpc, rfl⟩)

/-! ## The invariant (R33) -/

/-- The invariant speaks of no other fields than these. -/
theorem Inv.of_fields (h : Inv s) (hmem : t.mem = s.mem) (hi : t.i = s.i) (hpc : t.pc = s.pc)
    (hstack : t.stack = s.stack) (hsp : t.sp = s.sp) (hdepth : t.depth = s.depth) : Inv t where
  memory := hmem ▸ h.memory
  index := hi ▸ h.index
  counter := hpc ▸ h.counter
  built := hdepth ▸ h.built
  depth := by rw [hdepth, hsp]; exact h.depth
  cells := by rw [hdepth, hstack]; exact h.cells
  entries := by rw [hsp, hstack]; exact h.entries

theorem Inv.setPc (h : Inv s) {w : Word} (hw : w.toNat ≤ 4098) : Inv { s with pc := w } :=
  { h with counter := hw }

theorem Inv.jumpTo (h : Inv s) (nnn : Addr12) : Inv (jumpTo nnn s) :=
  h.setPc (by rw [zextAddr_toNat]; omega)

theorem Inv.setI (h : Inv s) (nnn : Addr12) : Inv { s with i := zextAddr nnn } :=
  { h with index := show (zextAddr nnn).toNat ≤ 4095 by rw [zextAddr_toNat]; omega }

theorem Inv.sp_lt (h : Inv s) (room : s.depth ≠ some s.sp) {d : Nat} (hd : s.depth = some d) : s.sp < d :=
  lt_of_le_of_ne (h.depth d hd) fun e => room (e ▸ hd)

/-- A push where the stack has room, of an address an instruction can return to. -/
theorem Inv.push (h : Inv s) (room : s.depth ≠ some s.sp) {w : Word} (hw : 2 ≤ w.toNat ∧ w.toNat ≤ 4096) :
    Inv (push s w) :=
  { h with
    depth := fun d hd => h.sp_lt room hd
    cells := fun d hd => by
      have inside : s.sp < s.stack.length := h.cells d hd ▸ h.sp_lt room hd
      rw [push_stack, writeCell_length inside, h.cells d hd]
    entries := fun k hk => by
      rw [push_stack, readCell_writeCell]
      split
      · exact hw
      · next hne => exact h.entries k (by rw [push_sp] at hk; omega) }

/-- The entry that a return takes is one an instruction can return to. -/
theorem Inv.popPc (h : Inv s) (live : s.sp ≠ 0) : Inv (popPc s) :=
  { h with
    counter := by
      have := (h.entries (s.sp - 1) (by omega)).2
      rw [popPc_pc]; omega
    depth := fun d hd => (Nat.sub_le _ _).trans (h.depth d hd)
    entries := fun k hk => h.entries k (by rw [popPc_sp] at hk; omega) }

theorem latchOpcode_toNat (hpc : s.pc.toNat ≤ 4094) : (latchOpcode s).pc.toNat = s.pc.toNat + 2 := by
  rw [latchOpcode_pc, ← advancePc_pc, advancePc_toNat (by omega)]

theorem Inv.latchOpcode (h : Inv s) (hpc : s.pc.toNat ≤ 4094) : Inv (latchOpcode s) :=
  { h with counter := by rw [latchOpcode_toNat hpc]; omega }

theorem Inv.settle (h : Inv s) : Inv (settle s) := by
  unfold Machine.settle
  split
  · exact h
  · exact h.of_fields (by simp) (by simp) (by simp) (by simp) (by simp) (by simp)

/-- EXECUTE keeps the invariant where FETCH has moved `pc` on to 2 to 4096, which is what CALL pushes. -/
theorem Inv.exec (h : Inv s) (hpc : 2 ≤ s.pc.toNat ∧ s.pc.toNat ≤ 4096) (he : exec i s = .next t) :
    Inv t := by
  cases exec_effect he with
  | nothing => exact h
  | index nnn => exact h.setI nnn
  | skip => exact h.setPc (by rw [← advancePc_pc, advancePc_toNat (by omega)]; omega)
  | jump nnn => exact h.jumpTo nnn
  | call nnn room => exact (h.push room hpc).jumpTo nnn
  | ret live => exact h.popPc live
  | fault | regs | clear | draw => exact h.of_fields rfl rfl rfl rfl rfl rfl

/-- Settles O15: a FETCH that does not fault moves `pc` on to 2 to 4096, from where the rule keeps the
invariant, and the timer is none of its fields. -/
theorem invariantKeptByEveryStep : Obligations.InvariantKeptByEveryStep := by
  intro s t h hstep
  obtain ⟨-, rfl⟩ | ⟨-, -, rfl⟩ | ⟨⟨-, hpc⟩, u, he, rfl⟩ := step_cases hstep
  · exact h
  · exact h.of_fields rfl rfl rfl rfl rfl rfl
  · have moved := latchOpcode_toNat hpc
    exact ((h.latchOpcode hpc).exec (by omega) he).settle

theorem inv_loaded {depth : Option Nat} (built : ∀ d, depth = some d → 1 ≤ d) {image : List Byte}
    (fits : image.length ≤ Config.progMax) : Inv (loaded depth image) :=
  { inv_resetAt built with
    memory := writeBytes_wf image (reset_mem_wf depth) (Nat.add_le_of_le_sub' (by decide) fits) }

/-- Settles O16: LOAD builds a reset state with an image that fits, POKE writes inside memory, TICK is the
step, and the other operations leave every field the invariant speaks of. -/
theorem invariantKeptByEveryHostOperation : Obligations.InvariantKeptByEveryHostOperation := by
  intro op s t r notFetch notExecute h hop
  cases op with
  | fetch => exact absurd rfl notFetch
  | execute => exact absurd rfl notExecute
  | load image =>
    obtain ⟨fits, rfl, -⟩ := hostLoad_eq_next.mp hop
    exact inv_loaded h.built fits
  | tick => exact invariantKeptByEveryStep s t h (silently_eq_next.mp hop).1
  | poke addr b =>
    obtain ⟨inside, -, rfl, -⟩ := hostPoke_eq_next.mp hop
    exact { h with memory := writeByte_wf h.memory inside _ }
  | readPixel px py => rw [hostReadPixel_state hop]; exact h
  | readDirty | readDt | readFault => cases hop; exact h
  | clearDirty => cases hop; exact h.of_fields rfl rfl rfl rfl rfl rfl

/-! ## Parts that cannot be observed -/

/-- Parts that no rule reads into another part: the dead stack cells, DIRTY, and the timer, where DIV goes
into DT. -/
structure Unread (D : List Part) : Prop where
  only  : ∀ p ∈ D, p ∈ [Part.stack, .dirty, .dt, .div]
  timer : .div ∈ D → .dt ∈ D

/-- Two states that agree off parts that cannot be observed; the live stack cells always agree. -/
structure Similar (D : List Part) (s u : State) : Prop where
  unread : Unread D
  frame  : Frame D s u
  live   : ∀ k < s.sp, readCell u.stack k = readCell s.stack k

/-- Both answer next states, and these are similar. -/
def Answers (D : List Part) (r q : Result) : Prop := ∃ t v, r = .next t ∧ q = .next v ∧ Similar D t v

/-! ### What two similar states share -/

theorem Similar.agree (h : Similar D s u) (p : Part) (hp : p ∉ [Part.stack, .dirty, .dt, .div] ) :
    agree p s u :=
  h.frame p (mt (h.unread.only p) hp)

theorem Similar.readByte (h : Similar D s u) (a : Nat) : readByte u.mem a = readByte s.mem a :=
  h.agree .mem (by decide) a
theorem Similar.readV (h : Similar D s u) (x : Nibble) : readV u x = readV s x := h.agree .v (by decide) x
theorem Similar.index (h : Similar D s u) : u.i = s.i := h.agree .i (by decide)
theorem Similar.pc (h : Similar D s u) : u.pc = s.pc := h.agree .pc (by decide)
theorem Similar.sp (h : Similar D s u) : u.sp = s.sp := h.agree .sp (by decide)
theorem Similar.ir (h : Similar D s u) : u.ir = s.ir := h.agree .ir (by decide)
theorem Similar.fb (h : Similar D s u) : u.fb = s.fb := fb_ext (h.agree .fb (by decide))
theorem Similar.fault (h : Similar D s u) : u.fault = s.fault := h.agree .fault (by decide)
theorem Similar.depth (h : Similar D s u) : u.depth = s.depth := h.agree .depth (by decide)

theorem Similar.readWord (h : Similar D s u) (a : Nat) : readWord u.mem a = readWord s.mem a := by
  simp [Machine.readWord, h.readByte]

/-! ### Updates that take similar states to similar states -/

/-- Two updates of the same parts, which leave those parts the same. -/
theorem Similar.update (h : Similar D s u) (fs : Frame W s t) (fu : Frame W u v)
    (written : ∀ p ∈ W, p ∉ D → Machine.agree p t v)
    (live : ∀ k < t.sp, readCell v.stack k = readCell t.stack k) : Similar D t v where
  unread := h.unread
  live := live
  frame p hp := by
    by_cases hw : p ∈ W
    · exact written p hw hp
    · exact agree_trans (agree_symm (fs p hw)) (agree_trans (h.frame p hp) (fu p hw))

theorem Similar.writeV (h : Similar D s u) (x : Nibble) {b b' : Byte} (hb : b' = b) :
    Similar D (writeV s x b) (writeV u x b') :=
  h.update (frame_writeV s x b) (frame_writeV u x b')
    (by simp [Machine.agree, hb, h.readV]) h.live

theorem Similar.setFault (h : Similar D s u) (f : Option Fault) :
    Similar D { s with fault := f } { u with fault := f } :=
  h.update (frame_setFault s f) (frame_setFault u f) (by simp [Machine.agree]) h.live

theorem Similar.setI (h : Similar D s u) (w : Word) : Similar D { s with i := w } { u with i := w } :=
  h.update (frame_setI s w) (frame_setI u w) (by simp [Machine.agree]) h.live

theorem Similar.setScreen (h : Similar D s u) {a b : Framebuffer} (hb : b = a) (dirty : Bool) :
    Similar D { s with fb := a, dirty := dirty } { u with fb := b, dirty := dirty } :=
  h.update (frame_setScreen s a dirty) (frame_setScreen u b dirty) (by simp [Machine.agree, hb]) h.live

theorem Similar.jumpTo (h : Similar D s u) (nnn : Addr12) : Similar D (jumpTo nnn s) (jumpTo nnn u) :=
  h.update (frame_jumpTo s nnn) (frame_jumpTo u nnn) (by simp [Machine.agree]) h.live

theorem Similar.advancePc (h : Similar D s u) : Similar D (advancePc s) (advancePc u) :=
  h.update (frame_advancePc s) (frame_advancePc u) (by simp [Machine.agree, h.pc]) h.live

/-- The cell a push writes is live afterwards, and holds the same in both. -/
theorem Similar.push (h : Similar D s u) {w w' : Word} (hw : w' = w) : Similar D (push s w) (push u w') := by
  refine h.update (frame_push s w) (frame_push u w') ?_ ?_
  · simp only [List.forall_mem_cons, List.not_mem_nil, false_imp_iff, implies_true, and_true]
    refine ⟨fun hstack k => ?_, fun _ => by simp [Machine.agree, h.sp]⟩
    simp [hw, h.sp, h.frame .stack hstack k]
  · intro k hk
    rw [push_sp] at hk
    simp only [push_stack, readCell_writeCell, h.sp, hw]
    split
    · rfl
    · exact h.live k (by omega)

/-- A return reads a live cell. -/
theorem Similar.popPc (h : Similar D s u) (live : s.sp ≠ 0) : Similar D (popPc s) (popPc u) :=
  h.update (frame_popPc s) (frame_popPc u)
    (by simp [Machine.agree, h.sp, h.live (s.sp - 1) (by omega)])
    fun k hk => h.live k (by rw [popPc_sp] at hk; omega)

theorem Similar.blit (h : Similar D s u) {ps qs : List Pixel} (hq : qs = ps) :
    Similar D (blit ps s) (blit qs u) := by
  subst hq
  exact (h.writeV vf (by rw [h.fb])).setScreen (by rw [h.fb]) true

theorem Similar.latchOpcode (h : Similar D s u) : Similar D (latchOpcode s) (latchOpcode u) :=
  h.update (frame_latchOpcode s) (frame_latchOpcode u)
    (by simp [Machine.agree, h.pc, h.readWord]) h.live

theorem Similar.timerStep (h : Similar D s u) : Similar D (timerStep s) (timerStep u) := by
  refine h.update (frame_timerStep s) (frame_timerStep u) ?_ (by simpa using h.live)
  have div (hdiv : .div ∉ D) : u.div = s.div := h.frame .div hdiv
  simp only [List.forall_mem_cons, List.not_mem_nil, false_imp_iff, implies_true, and_true]
  constructor
  · intro hdiv
    simp [Machine.agree, div hdiv]
  · intro hdt
    have dt : u.dt = s.dt := h.frame .dt hdt
    simp [Machine.agree, timerStep_dt, dt, div (mt h.unread.timer hdt)]

/-! ### The rules of the instructions and the cycle -/

theorem Similar.answer (h : Similar D t v) : Answers D (.next t) (.next v) := ⟨t, v, rfl, rfl, h⟩

theorem Similar.skipIf (h : Similar D s u) {c c' : Bool} (hc : c' = c) :
    Answers D (skipIf c s) (skipIf c' u) := by
  subst hc
  cases c' with
  | false => exact h.answer
  | true => exact h.advancePc.answer

theorem Similar.execRet (h : Similar D s u) : Answers D (execRet s) (execRet u) := by
  unfold Machine.execRet
  rw [h.sp]
  split
  · exact (h.setFault _).answer
  · next live => exact (h.popPc live).answer

theorem Similar.execCall (h : Similar D s u) (nnn : Addr12) : Answers D (execCall nnn s) (execCall nnn u) := by
  unfold Machine.execCall stackFull
  rw [h.sp, h.depth]
  split
  · exact (h.setFault _).answer
  · exact ((h.push h.pc).jumpTo nnn).answer

theorem Similar.execDrw (h : Similar D s u) (x y n : Nibble) :
    Answers D (execDrw x y n s) (execDrw x y n u) := by
  have pixels (a b : Byte) (k : Nat) :
      spritePixels u.mem s.i.toNat a b k = spritePixels s.mem s.i.toNat a b k := by
    simp [spritePixels, h.readByte]
  unfold Machine.execDrw
  rw [h.index, h.readV, h.readV]
  split
  · exact (h.blit (pixels _ _ _)).answer
  · exact (h.setFault _).answer

theorem Similar.exec (h : Similar D s u) (i : Instr) : Answers D (exec i s) (exec i u) := by
  cases i with
  | cls => exact (h.setScreen rfl true).answer
  | ret => exact h.execRet
  | call nnn => exact h.execCall nnn
  | drw x y n => exact h.execDrw x y n
  | jp nnn => exact (h.jumpTo nnn).answer
  | seImm | sneImm | seReg | sneReg => exact h.skipIf (by simp [h.readV])
  | ldI nnn => exact (h.setI _).answer
  | ldImm | addImm | ldReg | orReg | andReg | xorReg => exact (h.writeV _ (by simp [h.readV])).answer
  | addReg | subReg | shrReg | subnReg | shlReg =>
    exact ((h.writeV _ (by simp [h.readV])).writeV _ (by simp [h.readV])).answer
  | sys | alu8 | alu9 | aluA | aluB | aluC | aluD | aluF | famB | famC | famE | famF => exact h.answer

theorem Similar.halted (h : Similar D s u) : halted u = halted s := by
  simp [Machine.halted, h.fault]

theorem Similar.settle (h : Similar D s u) : Similar D (settle s) (settle u) := by
  unfold Machine.settle
  rw [h.halted]
  split
  · exact h
  · exact h.timerStep

theorem Similar.fetch (h : Similar D s u) : Answers D (fetch s) (fetch u) := by
  unfold Machine.fetch canFetch
  rw [h.halted, h.pc]
  split
  · exact h.answer
  · split
    · exact h.latchOpcode.answer
    · exact (h.setFault _).answer

theorem Similar.execute (h : Similar D s u) : Answers D (execute s) (execute u) := by
  unfold Machine.execute
  rw [h.halted, h.ir]
  split
  · exact h.answer
  · obtain ⟨t, v, ht, hv, sim⟩ := h.exec (decode s.ir)
    rw [ht, hv]
    exact sim.settle.answer

/-- No TICK carries a difference in parts that cannot be observed into another part. -/
theorem Similar.step (h : Similar D s u) : Answers D (step s) (step u) := by
  obtain ⟨s', u', hs, hu, sim⟩ := h.fetch
  obtain ⟨t, v, ht, hv, sim'⟩ := sim.execute
  exact ⟨t, v, step_eq_next.mpr ⟨s', hs, ht⟩, step_eq_next.mpr ⟨u', hu, hv⟩, sim'⟩

theorem Similar.step_next (h : Similar D s u) (hstep : Machine.step s = .next t) :
    ∃ v, Machine.step u = .next v ∧ Similar D t v := by
  obtain ⟨t', v, ht, hv, sim⟩ := h.step
  cases ht.symm.trans hstep
  exact ⟨v, hv, sim⟩

/-- Settles O20: the timer and DIRTY are parts that cannot be observed, and the stack cells all agree. -/
theorem timerAndDirtyFlagAreNeverRead : Obligations.TimerAndDirtyFlagAreNeverRead := by
  intro s u t frame hstep
  have sim : Similar [.dt, .div, .dirty] s u :=
    ⟨⟨by decide, by decide⟩, frame, fun k _ => frame .stack (by decide) k⟩
  obtain ⟨v, hv, sim'⟩ := sim.step_next hstep
  exact ⟨v, hv, sim'.frame⟩

/-- Settles O21: the stack is a part that cannot be observed where its live cells agree. -/
theorem deadStackCellsCannotBeObserved : Obligations.DeadStackCellsCannotBeObserved := by
  intro s u t frame live hstep
  have sim : Similar [.stack] s u := ⟨⟨by decide, by decide⟩, frame, live⟩
  obtain ⟨v, hv, sim'⟩ := sim.step_next hstep
  exact ⟨v, hv, sim'.frame, sim'.live⟩

end Sys2Proof.Machine
end

section
/-!
PROOFS of the statements about memory (20_memory.md): the frame of `mem` for FETCH, the rules, EXECUTE and TICK,
so that the host's LOAD and POKE alone write it; and the TICK that runs a word the host poked at `pc`.
-/

namespace Sys2Proof.Machine

variable {s t : State}

/-! ## FETCH, EXECUTE and TICK leave memory (R54) -/

@[simp] theorem settle_mem (s : State) : (settle s).mem = s.mem := by
  unfold settle
  split
  · rfl
  · exact timerStep_mem s

theorem fetch_mem (h : fetch s = .next t) : t.mem = s.mem := by
  obtain ⟨-, e⟩ | ⟨-, -, e⟩ | ⟨-, -, e⟩ := fetch_cases s <;> cases e.symm.trans h <;> rfl

/-- None of the updates that the rules are made of writes memory. -/
theorem exec_mem {i : Instr} (h : exec i s = .next t) : t.mem = s.mem := by
  cases exec_effect h <;> rfl

theorem execute_mem (h : execute s = .next t) : t.mem = s.mem := by
  by_cases run : s.fault = none
  · rw [execute_running run] at h
    obtain ⟨u, hu, rfl⟩ := afterRule_eq_next.mp h
    rw [settle_mem, exec_mem hu]
  · rw [execute_halted run] at h
    cases h; rfl

theorem step_mem (h : step s = .next t) : t.mem = s.mem := by
  obtain ⟨u, hu, ht⟩ := step_eq_next.mp h
  rw [execute_mem ht, fetch_mem hu]

/-! ## What LOAD and POKE leave (R54, D1, D16) -/

/-- Outside the image a loaded core reads the reset value. -/
theorem readByte_loaded_outside (depth : Option Nat) {image : List Byte} {a : Nat}
    (outside : a < 0x200 ∨ 0x200 + image.length ≤ a) : readByte (loaded depth image).mem a = 0 := by
  have hno : ¬ (Config.progBase ≤ a ∧ a < Config.progBase + image.length) := by
    simp only [Config.progBase]; omega
  exact (readByte_writeBytes image _ _ a).trans (if_neg hno)

/-- An operation of the host other than LOAD and POKE leaves memory. -/
theorem hostOp_mem {op : HostOp} {r : HostValue} (notLoad : ∀ image, op ≠ .load image)
    (notPoke : ∀ a b, op ≠ .poke a b) (h : hostOp op s = .next (t, r)) : t.mem = s.mem := by
  cases op with
  | load image => exact absurd rfl (notLoad image)
  | poke a b => exact absurd rfl (notPoke a b)
  | fetch => exact fetch_mem (hostFetch_eq_next.mp h).1
  | execute => exact execute_mem (silently_eq_next.mp h).1
  | tick => exact step_mem (silently_eq_next.mp h).1
  | readPixel px py => rw [hostReadPixel_state h]
  | readDirty | clearDirty | readDt | readFault => cases h; rfl

/-- Settles O17: LOAD leaves the reset value outside the image, POKE writes the one cell it names, and
`hostOp_mem` is the rest. -/
theorem onlyLoadAndPokeWriteMemory : Obligations.OnlyLoadAndPokeWriteMemory := by
  intro op s t r h
  cases op with
  | load image =>
    obtain ⟨-, rfl, -⟩ := hostLoad_eq_next.mp h
    exact .inl ⟨image, rfl, fun a => readByte_loaded_outside s.depth⟩
  | poke a b =>
    obtain ⟨-, -, rfl, -⟩ := hostPoke_eq_next.mp h
    refine .inr (.inl ⟨a, b, rfl, fun c hc => ?_⟩)
    rw [readByte_writeByte, if_neg hc]
  | _ => exact .inr (.inr fun a => by rw [hostOp_mem (by simp) (by simp) h])

/-! ## The TICK of a core that can fetch (R171 to R173) -/

theorem fetch_ready (h : Ready s) : fetch s = .next (fetched s) := by
  obtain ⟨run, hpc⟩ := h
  exact (if_neg (by simp [halted, run])).trans (if_pos (canFetch_iff.mpr hpc))

/-- FETCH latches the word at `pc`, and EXECUTE is its rule and what comes after it. -/
theorem step_ready (h : Ready s) : step s = afterRule (exec (nextInstr s) (fetched s)) := by
  have run : (fetched s).fault = none := h.1
  unfold step tick
  rw [fetch_ready h]
  exact execute_running run

/-! ## A word placed at `pc` (R61, R180, D16, log 7) -/

theorem placeWord_ready (h : Ready s) (op : Word) : placeWord s op =
    { s with mem := writeByte (writeByte s.mem s.pc.toNat (hiByte op)) (s.pc.toNat + 1) (loByte op) } :=
  if_pos (canFetch_iff.mpr h.2)

@[simp] theorem placeWord_pc (s : State) (op : Word) : (placeWord s op).pc = s.pc := by
  unfold placeWord
  split <;> rfl

@[simp] theorem placeWord_fault (s : State) (op : Word) : (placeWord s op).fault = s.fault := by
  unfold placeWord
  split <;> rfl

theorem Ready.placeWord (h : Ready s) (op : Word) : Ready (placeWord s op) := by
  simpa [Ready] using h

/-- FETCH reads back the word whose two bytes were placed at `pc` and `pc + 1`. -/
theorem wordAtPc_placeWord (h : Ready s) (op : Word) : wordAtPc (placeWord s op) = op := by
  rw [placeWord_ready h, wordAtPc, readWord_written, wordOfBytes_bytes]

/-- A POKE of a byte inside memory is not refused. -/
theorem hostPoke_byte {a : Nat} (inside : a < Config.memSize) (b : Byte) (s : State) :
    hostOp (.poke a b.toNat) s = .next ({ s with mem := writeByte s.mem a b }, .nothing) :=
  hostPoke_eq_next.mpr ⟨inside, b.isLt, by rw [BitVec.ofNat_toNat, BitVec.setWidth_eq], rfl⟩

/-- Settles O50: the two POKEs place the word at `pc`, and the core can still fetch. -/
theorem aPokedWordIsExecuted : Obligations.APokedWordIsExecuted := by
  intro s hi lo ready
  have inside : s.pc.toNat + 1 < Config.memSize := of_decide_eq_true (canFetch_iff.mpr ready.2)
  have second := hostPoke_byte inside lo { s with mem := writeByte s.mem s.pc.toNat hi }
  refine ⟨_, placeWord s (wordOfBytes hi lo), hostPoke_byte (Nat.lt_of_succ_lt inside) hi s, ?_, ?_⟩
  · rw [second, placeWord_ready ready, hiByte_wordOfBytes, loByte_wordOfBytes]
  · rw [step_ready (ready.placeWord _), nextInstr, fetched, wordAtPc_placeWord ready, placeWord_pc]

end Sys2Proof.Machine
end

section
/-!
PROOFS of the statements about the encoding (30_encoding.md): the encoder inverts the decoder on every word, so
the decoder inverts the encoder on every well-formed instruction; and the opcode table, whose rows are compared
by their masks and match values alone, without the word.
-/

namespace Sys2Proof

variable {fam n : Nibble} {nnn : Addr12} {op : Word} {i : Instr} {r q : Row}

/-! ## A word put together from a family or a selector that the decoder found (R71, R72) -/

theorem encNNN_of_family (h : (famOf op).toNat = fam.toNat) : encNNN fam (nnnOf op) = op := by
  rw [← BitVec.eq_of_toNat_eq h, encNNN_fields]

theorem encXKK_of_family (h : (famOf op).toNat = fam.toNat) : encXKK fam (xOf op) (kkOf op) = op := by
  rw [← BitVec.eq_of_toNat_eq h, encXKK_fields]

theorem encXYN_of_family (h : (famOf op).toNat = fam.toNat) :
    encXYN fam (xOf op) (yOf op) (nOf op) = op := by
  rw [← BitVec.eq_of_toNat_eq h, encXYN_fields]

theorem encXYN_of_selector (h : famOf op = 0x8#4) (hn : (nOf op).toNat = n.toNat) :
    encXYN 0x8#4 (xOf op) (yOf op) n = op := by
  rw [← h, ← BitVec.eq_of_toNat_eq hn, encXYN_fields]

theorem encAlu_of_selector (h : famOf op = 0x8#4) (hn : (nOf op).toNat = n.toNat) :
    encAlu (xyOf op) n = op := by
  rw [← BitVec.eq_of_toNat_eq hn, encAlu_fields op h]

/-! ## The encoder inverts the decoder -/

/-- Family 8, selector by selector (R74 step 4). -/
theorem encode_decodeAlu (h : famOf op = 0x8#4) : encode (decodeAlu op) = op := by
  unfold decodeAlu
  split
  case h_1 hn | h_2 hn | h_3 hn | h_4 hn | h_5 hn | h_6 hn | h_7 hn | h_8 hn | h_15 hn =>
    exact encXYN_of_selector h hn
  case h_9 hn | h_10 hn | h_11 hn | h_12 hn | h_13 hn | h_14 hn => exact encAlu_of_selector h hn
  case h_16 =>
    have last : (nOf op).toNat = 0xF := by
      have bound := (nOf op).isLt
      simp only [imp_false] at *
      omega
    exact encAlu_of_selector h last

/-- Family by family, each in its format (R74 step 3). -/
theorem encode_decodeFamily (op : Word) : encode (decodeFamily op) = op := by
  unfold decodeFamily
  split
  case h_1 h | h_2 h | h_3 h | h_11 h | h_12 h | h_13 h | h_15 h => exact encNNN_of_family h
  case h_4 h | h_5 h | h_7 h | h_8 h => exact encXKK_of_family h
  case h_6 h | h_10 h | h_14 h => exact encXYN_of_family h
  case h_9 h => exact encode_decodeAlu (BitVec.eq_of_toNat_eq h)
  case h_16 =>
    have last : (famOf op).toNat = 0xF := by
      have bound := (famOf op).isLt
      simp only [imp_false] at *
      omega
    exact encNNN_of_family last

theorem encode_decode (op : Word) : encode (decode op) = op := by
  unfold decode
  split
  case isTrue h => exact h.symm
  case isFalse =>
    split
    case isTrue h => exact h.symm
    case isFalse => exact encode_decodeFamily op

/-! ## Well-formed instructions -/

theorem encNNN_inj {a b : Addr12} : encNNN fam a = encNNN fam b ↔ a = b :=
  ⟨fun h => by simpa using congrArg nnnOf h, congrArg (encNNN fam)⟩

/-- A SYS is well formed when its word is neither of the two full words (R92). -/
theorem wf_sys : (Instr.sys nnn).wf = true ↔
    encode (.sys nnn) ≠ 0x00E0#16 ∧ encode (.sys nnn) ≠ 0x00EE#16 := by
  have cls : encode (.sys nnn) = 0x00E0#16 ↔ nnn = 0x0E0#12 := encNNN_inj (b := 0x0E0#12)
  have ret : encode (.sys nnn) = 0x00EE#16 ↔ nnn = 0x0EE#12 := encNNN_inj (b := 0x0EE#12)
  simp [Instr.wf, cls, ret]

/-- Only a SYS can be ill formed, and a word that decodes to SYS is not one of the full words. -/
theorem wf_decode (op : Word) : (decode op).wf = true := by
  cases h : decode op with
  | sys nnn =>
    have word : encode (.sys nnn) = op := h ▸ encode_decode op
    refine wf_sys.mpr ⟨?_, ?_⟩ <;> rw [word] <;> rintro rfl <;> cases h
  | _ => rfl

/-- Settles O2: the encoder inverts the decoder family by family and selector by selector. -/
theorem encodeOfDecodeIsIdentity : Obligations.EncodeOfDecodeIsIdentity :=
  fun op => ⟨wf_decode op, encode_decode op⟩

/-! ## The decoder inverts the encoder -/

/-- SYS is decoded after the two full words are ruled out; the two full words are compared first; every other
instruction is found by its family, and in family 8 by its selector (R74). -/
theorem decode_encode (h : i.wf = true) : decode (encode i) = i := by
  cases i with
  | cls => rfl
  | ret => rfl
  | sys nnn =>
    obtain ⟨notCls, notRet⟩ := wf_sys.mp h
    rw [decode_sys (by simp [encode]) notCls notRet, encode, nnnOf_encNNN]
  | _ =>
    rw [decode_of_family (by simp [encode])]
    simp [encode, decodeFamily, decodeAlu]

/-- Settles O1: the two bytes are the encoded word again, and that word decodes to the instruction. -/
theorem decodeOfEncodeIsIdentity : Obligations.DecodeOfEncodeIsIdentity := by
  intro i wf rest
  have bytes : decodeBytes (encodeBytes i ++ rest) =
      .ok (decode (wordOfBytes (hiByte (encode i)) (loByte (encode i))), rest) := rfl
  rw [bytes, wordOfBytes_bytes, decode_encode wf]

/-! ## The opcode table (R74, R75, R76, R77) -/

/-- The row is one of the two whose 16 bits are all matched. -/
abbrev Row.Fixed (r : Row) : Prop := r.form = "00E0" ∨ r.form = "00EE"

/-- The match values of the two rows agree on the bits that both masks keep. -/
def Row.compatible (r q : Row) : Bool := r.value &&& q.mask == q.value &&& r.mask

/-- Both values are then the word under the two masks. -/
theorem Row.compatible_of_applies (hr : r.applies op = true) (hq : q.applies op = true) :
    r.compatible q = true := by
  simp only [Row.applies, Row.compatible, beq_iff_eq] at *
  rw [← hr, ← hq, BitVec.and_assoc, BitVec.and_assoc, BitVec.and_comm r.mask]

/-- In the order of the table, an earlier row is compatible with a later one only where a FIXED row stands
before the SYS row. -/
theorem opcodeRows_overlap :
    opcodeRows.Pairwise fun r q => r.compatible q = true → r.Fixed ∧ q.form = "0nnn" := by
  decide

/-- A FIXED row applies to its own word alone. -/
theorem Row.Fixed.word (fixed : r.Fixed) (hr : r ∈ opcodeRows) (h : r.applies op = true) :
    op = 0x00E0#16 ∨ op = 0x00EE#16 := by
  have whole : ∀ r ∈ opcodeRows, r.Fixed →
      r.mask = BitVec.allOnes 16 ∧ (r.value = 0x00E0#16 ∨ r.value = 0x00EE#16) := by decide
  obtain ⟨mask, value⟩ := whole r hr fixed
  rw [Row.applies, mask, BitVec.and_allOnes, beq_iff_eq] at h
  rwa [h]

/-- Every instruction's word lies in the row that names its form. -/
theorem onItsRow : ∀ i : Instr, Laws.OnItsRow.Statement i
  | .cls => Laws.OnItsRow.cls
  | .ret => Laws.OnItsRow.ret
  | .sys _ => Laws.OnItsRow.sys _
  | .jp _ => Laws.OnItsRow.jp _
  | .call _ => Laws.OnItsRow.call _
  | .seImm _ _ => Laws.OnItsRow.seImm _ _
  | .sneImm _ _ => Laws.OnItsRow.sneImm _ _
  | .seReg _ _ _ => Laws.OnItsRow.seReg _ _ _
  | .ldImm _ _ => Laws.OnItsRow.ldImm _ _
  | .addImm _ _ => Laws.OnItsRow.addImm _ _
  | .ldReg _ _ => Laws.OnItsRow.ldReg _ _
  | .orReg _ _ => Laws.OnItsRow.orReg _ _
  | .andReg _ _ => Laws.OnItsRow.andReg _ _
  | .xorReg _ _ => Laws.OnItsRow.xorReg _ _
  | .addReg _ _ => Laws.OnItsRow.addReg _ _
  | .subReg _ _ => Laws.OnItsRow.subReg _ _
  | .shrReg _ _ => Laws.OnItsRow.shrReg _ _
  | .subnReg _ _ => Laws.OnItsRow.subnReg _ _
  | .shlReg _ _ => Laws.OnItsRow.shlReg _ _
  | .alu8 _ => Laws.OnItsRow.alu8 _
  | .alu9 _ => Laws.OnItsRow.alu9 _
  | .aluA _ => Laws.OnItsRow.aluA _
  | .aluB _ => Laws.OnItsRow.aluB _
  | .aluC _ => Laws.OnItsRow.aluC _
  | .aluD _ => Laws.OnItsRow.aluD _
  | .aluF _ => Laws.OnItsRow.aluF _
  | .sneReg _ _ _ => Laws.OnItsRow.sneReg _ _ _
  | .ldI _ => Laws.OnItsRow.ldI _
  | .famB _ => Laws.OnItsRow.famB _
  | .famC _ => Laws.OnItsRow.famC _
  | .drw _ _ _ => Laws.OnItsRow.drw _ _ _
  | .famE _ => Laws.OnItsRow.famE _
  | .famF _ => Laws.OnItsRow.famF _

/-- The row that names the decoded form applies to the word, as the word is its own decoding encoded. -/
theorem exists_row_of_decode (op : Word) :
    ∃ r ∈ opcodeRows, r.form = formOf (decode op) ∧ r.applies op = true := by
  obtain ⟨r, hr, form, masked⟩ := onItsRow (decode op)
  rw [encode_decode] at masked
  exact ⟨r, hr, form, beq_iff_eq.mpr masked⟩

/-- No row before the row of the decoded form applies: such a row would be a FIXED one, whose words have their
own rows first. -/
theorem find?_opcodeRows (op : Word) :
    (opcodeRows.find? fun r => r.applies op).map Row.form = some (formOf (decode op)) := by
  by_cases full : op = 0x00E0#16 ∨ op = 0x00EE#16
  · obtain rfl | rfl := full <;> decide
  · obtain ⟨r, hr, form, applies⟩ := exists_row_of_decode op
    obtain ⟨before, after, split⟩ := List.append_of_mem hr
    have first : (opcodeRows.find? fun r => r.applies op) = some r := by
      refine List.find?_eq_some_iff_append.mpr ⟨applies, before, after, split, fun q hq => ?_⟩
      have overlap := opcodeRows_overlap
      rw [split] at overlap
      have earlier := (List.pairwise_append.mp overlap).2.2 q hq r List.mem_cons_self
      have member : q ∈ opcodeRows := split ▸ List.mem_append_left _ hq
      rw [Bool.not_eq_true', Bool.eq_false_iff]
      intro h
      exact full ((earlier (Row.compatible_of_applies h applies)).1.word member h)
    rw [first, Option.map_some, form]

/-- If both rows apply to the word, one of them is a FIXED row and the other the SYS row. -/
def OverlapOnlyFixedSys (op : Word) (r q : Row) : Prop :=
  r.applies op = true → q.applies op = true →
    (r.Fixed ∧ q.form = "0nnn") ∨ (q.Fixed ∧ r.form = "0nnn")

theorem overlapOnlyFixedSys_symm (op : Word) : Std.Symm (OverlapOnlyFixedSys op) :=
  ⟨fun _ _ h ar aq => (h aq ar).symm⟩

/-- The table's order does not matter for overlaps: what holds of an earlier and a later row holds of any two. -/
theorem overlapOnlyFixedSys_of_mem (hr : r ∈ opcodeRows) (hq : q ∈ opcodeRows) (ne : r ≠ q) :
    OverlapOnlyFixedSys op r q := by
  have symm := overlapOnlyFixedSys_symm op
  have ordered : opcodeRows.Pairwise (OverlapOnlyFixedSys op) :=
    opcodeRows_overlap.imp fun h ar aq => .inl (h (Row.compatible_of_applies ar aq))
  exact ordered.forall hr hq ne

/-- Settles O3: the table's order is the decoder's order, and its overlaps are those of its masks. -/
theorem decoderIsTheFirstMatchingRow : Obligations.DecoderIsTheFirstMatchingRow :=
  fun op => ⟨find?_opcodeRows op, fun _ hr _ hq ar aq ne => overlapOnlyFixedSys_of_mem hr hq ne ar aq⟩

/-! ## Words written out bit by bit -/

/-- Settles O4: twenty closed words, each decoded. -/
theorem writtenOutWordsDecode : Obligations.WrittenOutWordsDecode := by
  unfold Obligations.WrittenOutWordsDecode
  decide

end Sys2Proof
end

section
/-!
PROOFS of the statements about family 0 and the unassigned words (40_fullword.md, 45_unassigned.md):
the words that decode to CLS and RET; what the masks of the opcode table leave of a word, and that a no-op
word decodes to an instruction whose rule changes nothing; CLS and RET.
-/

namespace Sys2Proof

variable {op : Word} {i : Instr}

/-! ## The word of an instruction, a word under a mask, family 8 (R74 to R77) -/

/-- A well-formed instruction is decoded from its own word alone. -/
theorem decode_eq_iff (wf : i.wf = true) : decode op = i ↔ op = encode i :=
  ⟨fun e => e ▸ (encode_decode op).symm, fun e => e ▸ decode_encode wf⟩

@[simp] theorem famOf_mask_family (op : Word) : famOf (op &&& 0xF000#16) = famOf op := by
  rw [mask_family, famOf_encNNN]

@[simp] theorem famOf_mask_alu (op : Word) : famOf (op &&& 0xF00F#16) = famOf op :=
  BitVec.extractLsb'_and.trans BitVec.and_allOnes

@[simp] theorem nOf_mask_alu (op : Word) : nOf (op &&& 0xF00F#16) = nOf op :=
  BitVec.extractLsb'_and.trans BitVec.and_allOnes

/-- Family 8 is decoded by its selector (R74 step 4). -/
theorem decode_alu (h : famOf op = 0x8#4) : decode op = decodeAlu op := by
  rw [decode_of_family (by rw [h]; decide), decodeFamily, h]
  rfl

end Sys2Proof

namespace Sys2Proof.Machine

variable {op : Word} {s t : State} {W W' : List Part}

/-! ## The no-op words (R77, R92, R160 to R164) -/

/-- The families B, C, E and F (R161 to R164). -/
theorem exec_decodeFamily_noOp (h : famOf op ∈ [0xB#4, 0xC#4, 0xE#4, 0xF#4]) (s : State) :
    exec (decodeFamily op) s = .next s := by
  simp only [List.mem_cons, List.not_mem_nil, or_false] at h
  obtain h | h | h | h := h <;> rw [decodeFamily, h] <;> rfl

/-- The selectors 8 to D and F of family 8 (R160). -/
theorem exec_decodeAlu_noOp (h : nOf op ∈ [0x8#4, 0x9#4, 0xA#4, 0xB#4, 0xC#4, 0xD#4, 0xF#4]) (s : State) :
    exec (decodeAlu op) s = .next s := by
  simp only [List.mem_cons, List.not_mem_nil, or_false] at h
  obtain h | h | h | h | h | h | h := h <;> rw [decodeAlu, h] <;> rfl

/-- Class by class: the family and the selector that the decoder looks at are those of the word under the mask,
so each is one of the list that its class gives. -/
theorem exec_of_noOpWord (h : NoOpWord op) (s : State) : exec (decode op) s = .next s := by
  obtain ⟨family, notCls, notRet⟩ | selector | family := h
  · have sys : famOf op = 0x0#4 := by rw [← famOf_mask_family, family]; rfl
    rw [decode_sys sys notCls notRet]
    rfl
  · have alu : famOf op = 0x8#4 := by
      have family := List.mem_map_of_mem (f := famOf) selector
      rw [famOf_mask_alu] at family
      exact List.eq_of_mem_replicate (n := 7) family
    have ignored := List.mem_map_of_mem (f := nOf) selector
    rw [nOf_mask_alu] at ignored
    rw [decode_alu alu]
    exact exec_decodeAlu_noOp ignored s
  · have ignored := List.mem_map_of_mem (f := famOf) family
    rw [famOf_mask_family] at ignored
    rw [decode_of_family (ne_of_mem_of_not_mem ignored (by decide))]
    exact exec_decodeFamily_noOp ignored s

/-- Settles O26: by the class of the word, and for the twelve instructions by the rule itself. -/
theorem noOpWordsChangeNothing : Obligations.NoOpWordsChangeNothing :=
  ⟨fun _ s h => exec_of_noOpWord h s,
    fun _ _ _ => ⟨rfl, rfl, rfl, rfl, rfl, rfl, rfl, rfl, rfl, rfl, rfl, rfl⟩⟩

/-! ## CLS and RET (R90, R91) -/

/-- A frame may list more parts. -/
theorem Frame.mono (h : Frame W s t) (sub : W ⊆ W') : Frame W' s t :=
  fun p hp => h p fun mem => hp (sub mem)

/-- Settles O23: the cleared framebuffer is the blank one. -/
theorem clsClearsEveryPixel : Obligations.ClsClearsEveryPixel :=
  ⟨fun _ => decode_eq_iff rfl, fun s => ⟨_, rfl, fbRead_blank, rfl, frame_setScreen s _ _⟩⟩

/-- Settles O24: on a live stack RET is `popPc`. -/
theorem retPopsTheNewestEntry : Obligations.RetPopsTheNewestEntry := by
  refine ⟨fun _ => decode_eq_iff rfl, fun s live => ?_⟩
  obtain ⟨empty, -⟩ | ⟨-, pops⟩ := execRet_cases s
  · omega
  · exact ⟨popPc s, pops, rfl, Nat.sub_add_cancel live, (frame_popPc s).mono (by simp)⟩

/-- Settles O25: the other case of RET. -/
theorem retOnAnEmptyStackFaults : Obligations.RetOnAnEmptyStackFaults := by
  intro s empty
  obtain ⟨-, faults⟩ | ⟨live, -⟩ := execRet_cases s
  · exact faults
  · exact absurd empty live

end Sys2Proof.Machine
end

section
/-!
PROOFS of the statements about control transfer (41_control_transfer.md): the words of a family; JP and the
four skips; the TICK that raises no fault, and the self-jump; the fault a rule raises; CALL, and the balance of
nested calls and returns.
-/

namespace Sys2Proof.Machine

variable {s t u v : State} {W : List Part} {p : Part} {i : Instr} {is js : List Instr} {nnn : Addr12}

/-! ## The words of a family (R75) -/

/-- The top nibble of the word is that of the match value, and outside family 0 it decides the row. -/
theorem encodes_family {value : Word} {f : Word → Instr} (notZero : famOf value ≠ 0x0#4)
    (row : ∀ op, famOf op = famOf value → decodeFamily op = f op) : Encodes 0xF000#16 value f := by
  intro op masked
  have family : famOf op = famOf value := by rw [← masked, famOf_mask_family]
  rw [decode_of_family (family ▸ notZero), row op family]

theorem encodes_jp : Encodes 0xF000#16 0x1000#16 fun op => .jp (nnnOf op) :=
  encodes_family (by decide) fun op h => by rw [decodeFamily, h]; rfl

theorem encodes_call : Encodes 0xF000#16 0x2000#16 fun op => .call (nnnOf op) :=
  encodes_family (by decide) fun op h => by rw [decodeFamily, h]; rfl

theorem encodes_seImm : Encodes 0xF000#16 0x3000#16 fun op => .seImm (xOf op) (kkOf op) :=
  encodes_family (by decide) fun op h => by rw [decodeFamily, h]; rfl

theorem encodes_sneImm : Encodes 0xF000#16 0x4000#16 fun op => .sneImm (xOf op) (kkOf op) :=
  encodes_family (by decide) fun op h => by rw [decodeFamily, h]; rfl

theorem encodes_seReg : Encodes 0xF000#16 0x5000#16 fun op => .seReg (xOf op) (yOf op) (nOf op) :=
  encodes_family (by decide) fun op h => by rw [decodeFamily, h]; rfl

theorem encodes_sneReg : Encodes 0xF000#16 0x9000#16 fun op => .sneReg (xOf op) (yOf op) (nOf op) :=
  encodes_family (by decide) fun op h => by rw [decodeFamily, h]; rfl

/-! ## JP (R100) -/

/-- A FETCH past address 4094 (R201, D7). -/
theorem fetch_out_of_range (run : s.fault = none) (past : 4094 < s.pc.toNat) :
    fetch s = .next { s with fault := some .fetchRange } := by
  obtain ⟨halt, -⟩ | ⟨-, inside, -⟩ | ⟨-, -, faults⟩ := fetch_cases s
  · exact absurd run halt
  · omega
  · exact faults

/-- Settles O27: after JP 0xFFF `pc` is 4095, where FETCH cannot read a word. -/
theorem jpSetsPc : Obligations.JpSetsPc := by
  refine ⟨encodes_jp, fun nnn s =>
    ⟨jumpTo nnn s, rfl, zextAddr_toNat nnn, frame_jumpTo s nnn, fun last run => ?_⟩⟩
  refine fetch_out_of_range run ?_
  rw [jumpTo_pc, zextAddr_toNat, last]
  decide

/-! ## The skips (R102 to R105) -/

theorem frame_refl (W : List Part) (s : State) : Frame W s s := fun p _ => agree_refl p s

theorem add_two_ne (w : Word) : w + 2 ≠ w := by bv_omega

/-- A skip on equality and a skip on difference of the same two bytes: exactly one is taken. -/
theorem skipIf_beq_bne (a b : Byte) (s : State) : ∃ t u,
    skipIf (a == b) s = .next t ∧ skipIf (a != b) s = .next u ∧
    t.pc = (if a = b then s.pc + 2 else s.pc) ∧ u.pc = (if a = b then s.pc else s.pc + 2) ∧
    Frame [.pc] s t ∧ Frame [.pc] s u ∧ t.pc ≠ u.pc := by
  by_cases h : a = b
  · exact ⟨advancePc s, s, by simp [skipIf_eq, h], by simp [skipIf_eq, h], by simp [h], by simp [h],
      frame_advancePc s, frame_refl _ s, add_two_ne s.pc⟩
  · exact ⟨s, advancePc s, by simp [skipIf_eq, h], by simp [skipIf_eq, h], by simp [h], by simp [h],
      frame_refl _ s, frame_advancePc s, (add_two_ne s.pc).symm⟩

/-- Settles O31: the two rules are the two skips on Vx and kk. -/
theorem skipsOnAnImmediate : Obligations.SkipsOnAnImmediate :=
  ⟨encodes_seImm, encodes_sneImm, fun x kk s => skipIf_beq_bne (readV s x) kk s⟩

/-- Settles O32: the two rules are the two skips on Vx and Vy, which are equal where x = y. -/
theorem skipsOnTwoRegisters : Obligations.SkipsOnTwoRegisters := by
  refine ⟨encodes_seReg, encodes_sneReg, fun x y low s => ?_⟩
  obtain ⟨t, u, se, sne, tpc, upc, tframe, uframe, -⟩ := skipIf_beq_bne (readV s x) (readV s y) s
  refine ⟨t, u, se, sne, tpc, upc, tframe, uframe, ?_⟩
  rintro rfl
  exact ⟨tpc.trans (if_pos rfl), upc.trans (if_pos rfl)⟩

/-! ## A TICK that raises no fault (R172, R173) -/

@[simp] theorem settle_fault (s : State) : (settle s).fault = s.fault := by
  unfold settle
  split
  · rfl
  · exact timerStep_fault s

theorem settle_eq_iff (sound : t.fault = none) : settle u = t ↔ timerStep u = t := by
  by_cases run : u.fault = none
  · rw [settle_running run]
  · constructor <;> rintro rfl
    · exact absurd ((settle_fault u).symm.trans sound) run
    · exact absurd ((timerStep_fault u).symm.trans sound) run

/-- A TICK without a fault is the rule of the instruction at `pc`, then the timer step. -/
theorem step_sound (ready : Ready s) (sound : t.fault = none) :
    step s = .next t ↔ ∃ u, exec (nextInstr s) (fetched s) = .next u ∧ timerStep u = t := by
  simp only [step_ready ready, afterRule_eq_next, settle_eq_iff sound]

/-! ## The self-jump (R100, R184) -/

/-- A part that two states agree on may be dropped from the parts that a frame lists. -/
theorem Frame.drop (h : Frame (p :: W) s t) (hp : agree p s t) : Frame W s t := by
  intro q hq
  by_cases e : q = p
  · exact e ▸ hp
  · exact h q (by simp [e, hq])

/-- The state after a TICK of a JP. -/
def jumped (nnn : Addr12) (s : State) : State := timerStep (jumpTo nnn (fetched s))

@[simp] theorem jumped_pc (nnn : Addr12) (s : State) : (jumped nnn s).pc = zextAddr nnn := timerStep_pc _
@[simp] theorem jumped_ir (nnn : Addr12) (s : State) : (jumped nnn s).ir = wordAtPc s := timerStep_ir _
@[simp] theorem jumped_mem (nnn : Addr12) (s : State) : (jumped nnn s).mem = s.mem := timerStep_mem _
@[simp] theorem jumped_fault (nnn : Addr12) (s : State) : (jumped nnn s).fault = s.fault := timerStep_fault _

theorem step_jp (ready : Ready s) (hi : nextInstr s = .jp nnn) : step s = .next (jumped nnn s) :=
  (step_sound ready ((jumped_fault nnn s).trans ready.1)).mpr
    ⟨jumpTo nnn (fetched s), by rw [hi]; rfl, rfl⟩

theorem frame_jumped (nnn : Addr12) (s : State) : Frame [.pc, .ir, .div, .dt] s (jumped nnn s) :=
  ((frame_latchOpcode s).trans ((frame_jumpTo _ nnn).trans (frame_timerStep _))).mono (by simp)

/-- A jump to its own address leaves `pc`. -/
theorem frame_jumped_self (self : zextAddr nnn = s.pc) : Frame [.ir, .div, .dt] s (jumped nnn s) :=
  (frame_jumped nnn s).drop ((jumped_pc nnn s).trans self)

/-- So the next FETCH reads the same word. -/
theorem wordAtPc_jumped_self (self : zextAddr nnn = s.pc) : wordAtPc (jumped nnn s) = wordAtPc s := by
  rw [wordAtPc, jumped_pc, jumped_mem, self, wordAtPc]

/-- Settles O28: the first TICK leaves `pc` and memory, so that the second is a TICK of the same JP, which
latches the word that `IR` already holds. -/
theorem aSelfJumpStaysPut : Obligations.ASelfJumpStaysPut := by
  intro nnn s ready hi target
  have self : zextAddr nnn = s.pc := BitVec.eq_of_toNat_eq (by rw [zextAddr_toNat, target])
  have pc : (jumped nnn s).pc = s.pc := (jumped_pc nnn s).trans self
  have word : wordAtPc (jumped nnn s) = wordAtPc s := wordAtPc_jumped_self self
  have ready' : Ready (jumped nnn s) := by rwa [Ready, pc, jumped_fault]
  have hi' : nextInstr (jumped nnn s) = .jp nnn := by rw [nextInstr, word, ← hi, nextInstr]
  have ir : agree .ir (jumped nnn s) (jumped nnn (jumped nnn s)) := by
    rw [agree, jumped_ir, word, jumped_ir]
  exact ⟨jumped nnn s, jumped nnn (jumped nnn s), step_jp ready hi, frame_jumped_self self,
    step_jp ready' hi', (frame_jumped_self (self.trans pc.symm)).drop ir⟩

/-! ## The fault of a rule (R200) -/

/-- A fault that a rule leaves on a core that was not halted is one that its instruction raises there: RET,
CALL and DRW alone write FAULT. -/
theorem exec_faults {f : Fault} (h : exec i s = .next t) (run : s.fault = none) (hf : t.fault = some f) :
    Faults i s f := by
  cases i with
  | ret =>
    obtain ⟨empty, e⟩ | ⟨-, e⟩ := execRet_cases s <;> cases e.symm.trans h
    · cases hf; exact .inl ⟨rfl, empty, rfl⟩
    · cases run.symm.trans hf
  | call nnn =>
    obtain ⟨full, e⟩ | ⟨-, e⟩ := execCall_cases nnn s <;> cases e.symm.trans h
    · cases hf; exact .inr (.inl ⟨nnn, rfl, full, rfl⟩)
    · cases run.symm.trans hf
  | drw x y n =>
    obtain ⟨outside, e⟩ | ⟨-, e⟩ := execDrw_cases x y n s <;> cases e.symm.trans h
    · have past := mt spriteInMemory_iff.mpr (Bool.eq_false_iff.mp outside)
      cases hf; exact .inr (.inr ⟨x, y, n, rfl, by omega, by omega, rfl⟩)
    · cases run.symm.trans hf
  | _ =>
    have kept : t.fault = s.fault := exec_agree (p := .fault) h rfl
    cases (kept.trans run).symm.trans hf

theorem Faults.depth_of_stackOverflow (h : Faults i s .stackOverflow) : s.depth = some s.sp := by
  obtain ⟨-, -, e⟩ | ⟨-, -, full, -⟩ | ⟨-, -, -, -, -, -, e⟩ := h
  · cases e
  · exact full
  · cases e

/-- A TICK that raises StackOverflow finds the stack full. -/
theorem depth_of_step_stackOverflow (run : s.fault = none) (h : step s = .next t)
    (hf : t.fault = some .stackOverflow) : s.depth = some s.sp := by
  obtain ⟨halt, -⟩ | ⟨-, -, rfl⟩ | ⟨-, u, he, rfl⟩ := step_cases h
  · exact absurd run halt
  · cases hf
  · exact (exec_faults he run ((settle_fault u).symm.trans hf)).depth_of_stackOverflow

/-! ## CALL (R101, D2) -/

/-- Settles O29: where the stack has room, CALL is a push and a jump. -/
theorem callPushesTheReturnAddress : Obligations.CallPushesTheReturnAddress := by
  refine ⟨encodes_call, fun nnn s room => ?_⟩
  obtain ⟨full, -⟩ | ⟨-, calls⟩ := execCall_cases nnn s
  · exact absurd full room
  · refine ⟨_, calls, zextAddr_toNat nnn, rfl, by simp, fun k hk => by simp [hk], ?_⟩
    exact ((frame_push s s.pc).trans (frame_jumpTo _ nnn)).mono (by simp)

/-- Settles O30: the other case of CALL; and no TICK finds an unbounded stack full. -/
theorem callOnAFullStackFaults : Obligations.CallOnAFullStackFaults := by
  refine ⟨fun nnn s full => ?_, fun s t unbounded run h hf => ?_⟩
  · obtain ⟨-, faults⟩ | ⟨room, -⟩ := execCall_cases nnn s
    · exact faults
    · exact absurd full room
  · cases unbounded.symm.trans (depth_of_step_stackOverflow run h hf)

/-! ## Calls and returns balance (R106, C9) -/

theorem Ticks.cons_iff : Ticks (i :: is) s t ↔
    ∃ u, (Ready s ∧ nextInstr s = i ∧ step s = .next u ∧ u.fault = none) ∧ Ticks is u t := by
  constructor
  · rintro (_ | ⟨ready, fetches, stepped, sound, rest⟩)
    exact ⟨_, ⟨ready, fetches, stepped, sound⟩, rest⟩
  · rintro ⟨u, ⟨ready, fetches, stepped, sound⟩, rest⟩
    exact .tick ready fetches stepped sound rest

theorem ticks_nil_iff : Ticks [] s t ↔ t = s :=
  ⟨fun h => by cases h; rfl, fun e => e ▸ .done s⟩

theorem ticks_append_iff : Ticks (is ++ js) s t ↔ ∃ u, Ticks is s u ∧ Ticks js u t := by
  induction is generalizing s with
  | nil => simp [ticks_nil_iff]
  | cons i is ih =>
    simp only [List.cons_append, Ticks.cons_iff, ih]
    constructor
    · rintro ⟨u, first, v, rest, last⟩; exact ⟨v, ⟨u, first, rest⟩, last⟩
    · rintro ⟨v, ⟨u, first, rest⟩, last⟩; exact ⟨u, first, v, rest, last⟩

/-- The rule of a single instruction that a TICK executes without a fault, and the timer step. -/
theorem ticks_singleton (h : Ticks [i] s t) : ∃ u, exec i (fetched s) = .next u ∧ timerStep u = t ∧
    u.fault = none := by
  obtain ⟨u, ⟨ready, rfl, stepped, sound⟩, rest⟩ := Ticks.cons_iff.mp h
  obtain rfl := ticks_nil_iff.mp rest
  obtain ⟨w, ruled, rfl⟩ := (step_sound ready sound).mp stepped
  exact ⟨w, ruled, rfl, (timerStep_fault w).symm.trans sound⟩

/-- A TICK of a CALL puts the address of the next instruction on top of the live entries. -/
theorem ticks_call (h : Ticks [.call nnn] s t) : t.sp = s.sp + 1 ∧
    ∀ k, readCell t.stack k = if k = s.sp then s.pc + 2 else readCell s.stack k := by
  obtain ⟨u, ruled, rfl, sound⟩ := ticks_singleton h
  obtain ⟨-, e⟩ | ⟨-, e⟩ := execCall_cases nnn (fetched s) <;> cases e.symm.trans ruled
  · cases sound
  · exact ⟨timerStep_sp _, fun k => by rw [timerStep_stack]; exact readCell_writeCell s.stack s.sp _ k⟩

/-- A TICK of a RET takes `pc` from the newest entry and leaves every cell. -/
theorem ticks_ret (h : Ticks [.ret] s t) :
    t.sp = s.sp - 1 ∧ t.pc = readCell s.stack (s.sp - 1) ∧ t.stack = s.stack := by
  obtain ⟨u, ruled, rfl, sound⟩ := ticks_singleton h
  obtain ⟨-, e⟩ | ⟨-, e⟩ := execRet_cases (fetched s) <;> cases e.symm.trans ruled
  · cases sound
  · exact ⟨timerStep_sp _, timerStep_pc _, timerStep_stack _⟩

/-- The same number of live entries, each as before. -/
structure SameLiveStack (s t : State) : Prop where
  sp      : t.sp = s.sp
  entries : ∀ k < s.sp, readCell t.stack k = readCell s.stack k

/-- A CALL, ticks that keep the live entries, the return address among them, and a RET. -/
theorem call_ret_balance (calls : Ticks [.call nnn] s u) (same : SameLiveStack u v)
    (returns : Ticks [.ret] v t) : SameLiveStack s t ∧ t.pc = s.pc + 2 := by
  obtain ⟨usp, ucell⟩ := ticks_call calls
  obtain ⟨tsp, tpc, tstack⟩ := ticks_ret returns
  have vsp : v.sp = s.sp + 1 := same.sp.trans usp
  have below (k : Nat) (hk : k ≤ s.sp) : readCell v.stack k = readCell u.stack k :=
    same.entries k (by omega)
  refine ⟨⟨by omega, fun k hk => ?_⟩, ?_⟩
  · rw [tstack, below k hk.le, ucell, if_neg hk.ne]
  · rw [tpc, vsp, Nat.add_sub_cancel, below _ le_rfl, ucell, if_pos rfl]

/-- Nested calls and returns are the outermost CALL, the inner calls and returns, and the last RET. -/
theorem ticks_nested {targets : List Addr12}
    (h : Ticks ((nnn :: targets).map Instr.call ++ List.replicate (nnn :: targets).length Instr.ret) s t) :
    ∃ u v, Ticks [.call nnn] s u ∧
      Ticks (targets.map Instr.call ++ List.replicate targets.length Instr.ret) u v ∧
      Ticks [.ret] v t := by
  rw [List.length_cons, List.replicate_succ', ← List.append_assoc] at h
  obtain ⟨v, h, returns⟩ := ticks_append_iff.mp h
  obtain ⟨u, calls, inner⟩ := ticks_append_iff (is := [.call nnn]).mp h
  exact ⟨u, v, calls, inner, returns⟩

theorem sameLiveStack_of_ticks {targets : List Addr12}
    (h : Ticks (targets.map Instr.call ++ List.replicate targets.length Instr.ret) s t) :
    SameLiveStack s t := by
  induction targets generalizing s t with
  | nil =>
    obtain rfl := ticks_nil_iff.mp h
    exact ⟨rfl, fun _ _ => rfl⟩
  | cons nnn targets ih =>
    obtain ⟨u, v, calls, inner, returns⟩ := ticks_nested h
    exact (call_ret_balance calls (ih inner) returns).1

/-- Settles O33: the calls and returns inside the outermost CALL keep the live entries, its return address
among them, which the last RET takes. -/
theorem callsThenReturnsBalance : Obligations.CallsThenReturnsBalance := by
  intro targets s t nonempty h
  cases targets with
  | nil => exact absurd rfl nonempty
  | cons nnn targets =>
    obtain ⟨u, v, calls, inner, returns⟩ := ticks_nested h
    obtain ⟨⟨sp, entries⟩, pc⟩ := call_ret_balance calls (sameLiveStack_of_ticks inner) returns
    exact ⟨sp, pc, entries⟩

end Sys2Proof.Machine
end

section
/-!
PROOFS of the statements about the immediates (42_immediate.md): the words of the families 6, 7 and A; the write
of one register; the one instruction that writes `I`.
-/

namespace Sys2Proof.Machine

variable {i : Instr}

/-! ## The words of the families 6, 7 and A (R110 to R112) -/

theorem encodes_ldImm : Encodes 0xF000#16 0x6000#16 fun op => .ldImm (xOf op) (kkOf op) :=
  encodes_family (by decide) fun op h => by rw [decodeFamily, h]; rfl

theorem encodes_addImm : Encodes 0xF000#16 0x7000#16 fun op => .addImm (xOf op) (kkOf op) :=
  encodes_family (by decide) fun op h => by rw [decodeFamily, h]; rfl

theorem encodes_ldI : Encodes 0xF000#16 0xA000#16 fun op => .ldI (nnnOf op) :=
  encodes_family (by decide) fun op h => by rw [decodeFamily, h]; rfl

/-! ## LD Vx, kk and ADD Vx, kk (R110, R111) -/

theorem onlyReg_writeV (x : Nibble) (b : Byte) (s : State) : OnlyReg x b s (writeV s x b) :=
  fun r => readV_writeV s x r b

/-- Settles O34: both rules write the one register Vx, and the sum of two bytes is taken mod 256. -/
theorem immediateLoadAndAdd : Obligations.ImmediateLoadAndAdd := by
  refine ⟨encodes_ldImm, encodes_addImm, fun x kk s =>
    ⟨writeV s x kk, writeV s x (readV s x + kk), rfl, rfl, onlyReg_writeV x kk s, ?_,
      fun _ => readV_writeV_of_ne, frame_writeV s x _, frame_writeV s x _⟩⟩
  rw [readV_writeV, if_pos rfl]
  exact BitVec.toNat_add _ _

/-! ## LD I, nnn (R112) -/

/-- The column "written by" of R20 names one instruction for `I` (R24). -/
theorem writes_index_iff : writes .i i = true ↔ ∃ nnn, i = .ldI nnn := by
  cases i <;> simp [writes]

/-- Settles O35: an instruction whose rule changes `I` is one that R20 lets write it. -/
theorem ldISetsTheIndexRegister : Obligations.LdISetsTheIndexRegister := by
  refine ⟨encodes_ldI, fun nnn s =>
    ⟨{ s with i := zextAddr nnn }, rfl, zextAddr_toNat nnn, frame_setI s _⟩, fun i s t h changed => ?_⟩
  refine writes_index_iff.mp ?_
  by_contra unwritten
  exact changed (exec_agree (p := .i) h (Bool.eq_false_of_not_eq_true unwritten))

end Sys2Proof.Machine
end

section
/-!
PROOFS of the statements about the ALU (43_alu.md): the words of the ALU family; what the two writes of an
instruction with a flag leave; the flags and the results as natural numbers and integers; the nine instructions.
-/

namespace Sys2Proof.Machine

variable {n : Nibble} {f : Word → Instr}

/-! ## The words of the ALU family (R76) -/

/-- The family and the selector of the word are those of the match value. -/
theorem encodes_alu (row : ∀ op, nOf op = n → decodeAlu op = f op) : Encodes 0xF00F#16 (encAlu 0#8 n) f := by
  intro op masked
  have family : famOf op = 0x8#4 := by rw [← famOf_mask_alu, masked, famOf_encAlu]
  have selector : nOf op = n := by rw [← nOf_mask_alu, masked, nOf_encAlu]
  rw [decode_alu family, row op selector]

theorem encodes_ldReg : Encodes 0xF00F#16 0x8000#16 fun op => .ldReg (xOf op) (yOf op) :=
  encodes_alu (n := 0x0#4) fun op h => by rw [decodeAlu, h]; rfl

theorem encodes_orReg : Encodes 0xF00F#16 0x8001#16 fun op => .orReg (xOf op) (yOf op) :=
  encodes_alu (n := 0x1#4) fun op h => by rw [decodeAlu, h]; rfl

theorem encodes_andReg : Encodes 0xF00F#16 0x8002#16 fun op => .andReg (xOf op) (yOf op) :=
  encodes_alu (n := 0x2#4) fun op h => by rw [decodeAlu, h]; rfl

theorem encodes_xorReg : Encodes 0xF00F#16 0x8003#16 fun op => .xorReg (xOf op) (yOf op) :=
  encodes_alu (n := 0x3#4) fun op h => by rw [decodeAlu, h]; rfl

theorem encodes_addReg : Encodes 0xF00F#16 0x8004#16 fun op => .addReg (xOf op) (yOf op) :=
  encodes_alu (n := 0x4#4) fun op h => by rw [decodeAlu, h]; rfl

theorem encodes_subReg : Encodes 0xF00F#16 0x8005#16 fun op => .subReg (xOf op) (yOf op) :=
  encodes_alu (n := 0x5#4) fun op h => by rw [decodeAlu, h]; rfl

theorem encodes_shrReg : Encodes 0xF00F#16 0x8006#16 fun op => .shrReg (xOf op) (yOf op) :=
  encodes_alu (n := 0x6#4) fun op h => by rw [decodeAlu, h]; rfl

theorem encodes_subnReg : Encodes 0xF00F#16 0x8007#16 fun op => .subnReg (xOf op) (yOf op) :=
  encodes_alu (n := 0x7#4) fun op h => by rw [decodeAlu, h]; rfl

theorem encodes_shlReg : Encodes 0xF00F#16 0x800E#16 fun op => .shlReg (xOf op) (yOf op) :=
  encodes_alu (n := 0xE#4) fun op h => by rw [decodeAlu, h]; rfl

/-! ## What the writes leave (R120) -/

variable (s : State) (x : Nibble) (a b c : Byte) (flag : Bool)

theorem readV_writeV_dest : readV (writeV s x b) x = b := by
  rw [readV_writeV, if_pos rfl]

/-- The result is the last write: it stays in VF too. -/
theorem readV_flagThenResult_dest : readV (flagThenResult x c b s) x = b :=
  readV_writeV_dest _ x b

theorem readV_resultThenFlag_dest (h : x ≠ vf) : readV (resultThenFlag x b c s) x = b := by
  rw [readV_resultThenFlag, if_neg h, if_pos rfl]

theorem frame_resultThenFlag : Frame [.v] s (resultThenFlag x b c s) := frame_setV s _

theorem frame_flagThenResult : Frame [.v] s (flagThenResult x c b s) := frame_setV s _

/-! ## Flags and results as numbers (R125 to R129) -/

theorem flagByte_toNat : (flagByte flag).toNat = flag.toNat := by
  cases flag <;> rfl

theorem carryFlag_toNat : (carryFlag a b).toNat = if a.toNat + b.toNat > 255 then 1 else 0 :=
  (flagByte_toNat _).trans (Bool.cond_decide _ _ _)

theorem greaterFlag_toNat : (greaterFlag a b).toNat = if a.toNat > b.toNat then 1 else 0 :=
  (flagByte_toNat _).trans (Bool.cond_decide _ _ _)

/-- A bit of a byte is a digit of its number. -/
theorem flagByte_getLsbD_toNat (k : Nat) : (flagByte (a.getLsbD k)).toNat = a.toNat / 2 ^ k % 2 :=
  (flagByte_toNat _).trans (Nat.toNat_testBit _ _)

theorem lowBitFlag_toNat : (lowBitFlag a).toNat = a.toNat % 2 := by
  rw [lowBitFlag, flagByte_getLsbD_toNat, Nat.pow_zero, Nat.div_one]

theorem highBitFlag_toNat : (highBitFlag a).toNat = a.toNat / 128 := by
  have bound := a.isLt
  rw [highBitFlag, flagByte_getLsbD_toNat]
  omega

/-- The difference of two bytes, taken mod 256, where it may be negative. -/
theorem sub_toNat_int : ((a - b).toNat : Int) = ((a.toNat : Int) - (b.toNat : Int)) % 256 := by
  have boundA := a.isLt
  have boundB := b.isLt
  rw [BitVec.toNat_sub]
  omega

theorem shiftRight_one_toNat : (a >>> 1).toNat = a.toNat / 2 := BitVec.toNat_ushiftRight a 1

theorem shiftLeft_one_toNat : (a <<< 1).toNat = a.toNat * 2 % 256 := by
  rw [BitVec.toNat_shiftLeft, Nat.shiftLeft_eq]

/-! ## LD, OR, AND and XOR (R121 to R124) -/

/-- Settles O36: each of the four rules writes the one register Vx. -/
theorem copyAndLogicWriteOnlyTheDestination : Obligations.CopyAndLogicWriteOnlyTheDestination := by
  refine ⟨encodes_ldReg, encodes_orReg, encodes_andReg, encodes_xorReg, fun x y s =>
    ⟨_, _, _, _, rfl, rfl, rfl, rfl, readV_writeV_dest s x _, ?or, ?and, ?xor, ?others,
      frame_writeV s x _, frame_writeV s x _, frame_writeV s x _, frame_writeV s x _⟩⟩
  case or => exact fun k _ => by rw [readV_writeV_dest, BitVec.getLsbD_or]
  case and => exact fun k _ => by rw [readV_writeV_dest, BitVec.getLsbD_and]
  case xor => exact fun k _ => by rw [readV_writeV_dest, BitVec.getLsbD_xor]
  case others =>
    exact fun r h =>
      ⟨readV_writeV_of_ne h, readV_writeV_of_ne h, readV_writeV_of_ne h, readV_writeV_of_ne h⟩

/-! ## ADD (R125, D10) -/

/-- Settles O37: the flag is the last write, so VF holds the carry whatever x is. -/
theorem addSetsSumThenCarry : Obligations.AddSetsSumThenCarry := by
  refine ⟨encodes_addReg, fun x y s => ⟨_, rfl, fun h => ?sum, ?carry,
    fun _ => readV_resultThenFlag_of_ne, frame_resultThenFlag s x _ _⟩⟩
  case sum => rw [readV_resultThenFlag_dest s x _ _ h]; exact BitVec.toNat_add _ _
  case carry => exact readV_vf_resultThenFlag (s := s) ▸ carryFlag_toNat _ _

/-! ## SUB and SUBN (R126, R128, D10) -/

/-- Settles O38: the difference is the last write, and VF keeps the flag where it is not the destination. -/
theorem subtractionsSetStrictFlagThenDifference : Obligations.SubtractionsSetStrictFlagThenDifference := by
  refine ⟨encodes_subReg, encodes_subnReg, fun x y s => ⟨_, _, rfl, rfl, ?sub, ?subn,
    fun h => ⟨?subFlag, ?subnFlag⟩,
    fun _ hx hf => ⟨readV_flagThenResult_of_ne hx hf, readV_flagThenResult_of_ne hx hf⟩,
    frame_flagThenResult s x _ _, frame_flagThenResult s x _ _⟩⟩
  case sub => rw [readV_flagThenResult_dest, sub_toNat_int]
  case subn => rw [readV_flagThenResult_dest, sub_toNat_int]
  case subFlag => exact readV_vf_flagThenResult (s := s) h.symm ▸ greaterFlag_toNat _ _
  case subnFlag => exact readV_vf_flagThenResult (s := s) h.symm ▸ greaterFlag_toNat _ _

/-! ## SHR and SHL (R127, R129, D10) -/

/-- Settles O39: the shifted value is the last write, and VF keeps the bit where it is not the destination. -/
theorem shiftsSetTheBitShiftedOutThenResult : Obligations.ShiftsSetTheBitShiftedOutThenResult := by
  refine ⟨encodes_shrReg, encodes_shlReg, fun x y s => ⟨_, _, rfl, rfl, ?shr, ?shl,
    fun h => ⟨?shrFlag, ?shlFlag⟩,
    fun _ hx hf => ⟨readV_flagThenResult_of_ne hx hf, readV_flagThenResult_of_ne hx hf⟩,
    frame_flagThenResult s x _ _, frame_flagThenResult s x _ _⟩⟩
  case shr => rw [readV_flagThenResult_dest, shiftRight_one_toNat]
  case shl => rw [readV_flagThenResult_dest, shiftLeft_one_toNat]
  case shrFlag => exact readV_vf_flagThenResult (s := s) h.symm ▸ lowBitFlag_toNat _
  case shlFlag => exact readV_vf_flagThenResult (s := s) h.symm ▸ highBitFlag_toNat _

/-! ## VF as the destination (R130, D10) -/

/-- Settles O40: VF holds the last write, which is the carry of ADD and the result of every other
instruction. -/
theorem finalVfWhenVfIsTheDestination : Obligations.FinalVfWhenVfIsTheDestination := by
  rintro y s _ _ rfl rfl
  refine ⟨?ld, ?or, ?and, ?xor, ?add, ?sub, ?shr, ?subn, ?shl⟩ <;> rintro _ ⟨⟩
  case ld => rw [readV_writeV_dest]
  case or => rw [readV_writeV_dest, BitVec.toNat_or]
  case and => rw [readV_writeV_dest, BitVec.toNat_and]
  case xor => rw [readV_writeV_dest, BitVec.toNat_xor]
  case add => exact readV_vf_resultThenFlag (s := s) ▸ carryFlag_toNat _ _
  case sub => rw [readV_flagThenResult_dest, sub_toNat_int]
  case shr => rw [readV_flagThenResult_dest, shiftRight_one_toNat]
  case subn => rw [readV_flagThenResult_dest, sub_toNat_int]
  case shl => rw [readV_flagThenResult_dest, shiftLeft_one_toNat, Nat.mul_comm]

end Sys2Proof.Machine
end

section
/-!
PROOFS of the statements about DRW (44_draw.md): the pixels of a sprite are all different; what the blit of
such pixels does to the screen and to VF; the sprite of a state, drawn once and twice.
-/

namespace Sys2Proof.Machine

variable {s t u : State} {ps : List Pixel} {p q : Pixel} {x y n : Nibble}
variable {a b bits bits' : Byte} {m : Memory} {i col col' row row' k : Nat}

/-! ## The pixels of a sprite are all different (R141, R146, D3) -/

/-- A pixel is the one of a sprite column and row by its two wrapped coordinates. -/
theorem eq_pixelAt_iff : p = pixelAt a b col row ↔
    p.1.val = (a.toNat + col) % 64 ∧ p.2.val = (b.toNat + row) % 32 := by
  simp only [pixelAt, Prod.ext_iff, Fin.ext_iff, Fin.ofNat]

/-- A sprite is at most 8 columns wide, and 8 consecutive columns differ mod 64. -/
theorem pixelAt_ne_of_col (hc : col < 8) (hc' : col' < 8) (ne : col ≠ col') :
    pixelAt a b col row ≠ pixelAt a b col' row' := by
  intro e
  obtain ⟨ex, -⟩ := eq_pixelAt_iff.mp e
  simp only [pixelAt, Fin.ofNat] at ex
  omega

/-- A sprite is at most 15 rows high, and 32 consecutive rows differ mod 32. -/
theorem pixelAt_ne_of_row (hr : row < 32) (hr' : row' < 32) (ne : row ≠ row') :
    pixelAt a b col row ≠ pixelAt a b col' row' := by
  intro e
  obtain ⟨-, ey⟩ := eq_pixelAt_iff.mp e
  simp only [pixelAt, Fin.ofNat] at ey
  omega

theorem exists_col_of_mem_rowPixels (h : p ∈ rowPixels a b bits row) : ∃ col, p = pixelAt a b col row := by
  simp only [rowPixels, List.mem_filterMap, Option.ite_none_right_eq_some, Option.some.injEq] at h
  obtain ⟨col, -, -, rfl⟩ := h
  exact ⟨col, rfl⟩

/-- Within a row the columns differ. -/
theorem rowPixels_nodup (a b bits : Byte) (row : Nat) : (rowPixels a b bits row).Nodup := by
  refine List.pairwise_filterMap.mpr (List.nodup_range.imp_of_mem fun hc hc' ne p hp q hq => ?_)
  simp only [Option.ite_none_right_eq_some, Option.some.injEq] at hp hq
  obtain ⟨-, rfl⟩ := hp
  obtain ⟨-, rfl⟩ := hq
  exact pixelAt_ne_of_col (List.mem_range.mp hc) (List.mem_range.mp hc') ne

/-- Two rows share no pixel, as their wrapped row coordinates differ. -/
theorem rowPixels_disjoint (hr : row < 32) (hr' : row' < 32) (ne : row ≠ row') :
    (rowPixels a b bits row).Disjoint (rowPixels a b bits' row') := by
  intro p hp hp'
  obtain ⟨col, rfl⟩ := exists_col_of_mem_rowPixels hp
  obtain ⟨col', e⟩ := exists_col_of_mem_rowPixels hp'
  exact pixelAt_ne_of_row hr hr' ne e

/-- A sprite of up to 32 rows wraps onto no row of its own. -/
theorem spritePixels_nodup (hk : k ≤ 32) : (spritePixels m i a b k).Nodup := by
  refine List.nodup_flatMap.mpr ⟨fun row _ => rowPixels_nodup a b _ row, ?_⟩
  refine List.nodup_range.imp_of_mem fun hr hr' ne => rowPixels_disjoint ?_ ?_ ne
  · exact (List.mem_range.mp hr).trans_le hk
  · exact (List.mem_range.mp hr').trans_le hk

/-- Settles O43: a row count is at most 15. -/
theorem aSpriteNeverTogglesAPixelTwice : Obligations.ASpriteNeverTogglesAPixelTwice :=
  fun _ _ _ _ n => spritePixels_nodup (by omega)

/-! ## The blit of pixels that are all different (R141, R143) -/

theorem flagByte_eq_one_iff {c : Bool} : flagByte c = 1 ↔ c = true := by
  cases c <;> simp [flagByte]

theorem fbRead_blit_of_mem (nd : ps.Nodup) (h : p ∈ ps) : fbRead (blit ps s).fb p = !fbRead s.fb p := by
  rw [blit_fb, fbRead_toggleAll nd, if_pos h]

theorem fbRead_blit_of_notMem (nd : ps.Nodup) (h : p ∉ ps) : fbRead (blit ps s).fb p = fbRead s.fb p := by
  rw [blit_fb, fbRead_toggleAll nd, if_neg h]

/-- The collision flag: some pixel was set before. -/
theorem readV_vf_blit (nd : ps.Nodup) : readV (blit ps s) vf = flagByte (ps.any fun p => fbRead s.fb p) := by
  rw [readV_blit, if_pos rfl, toggleAll_hit nd, Bool.false_or]

theorem readV_vf_blit_eq_one_iff (nd : ps.Nodup) :
    readV (blit ps s) vf = 1 ↔ ∃ p ∈ ps, fbRead s.fb p = true := by
  rw [readV_vf_blit nd, flagByte_eq_one_iff, List.any_eq_true]

theorem readV_vf_blit_eq_zero (nd : ps.Nodup) (clear : ∀ p ∈ ps, fbRead s.fb p = false) :
    readV (blit ps s) vf = 0 := by
  have missed : (ps.any fun p => fbRead s.fb p) = false := by simpa using clear
  rw [readV_vf_blit nd, missed]
  rfl

theorem readV_blit_of_ne {r : Nibble} (h : r ≠ vf) : readV (blit ps s) r = readV s r := by
  rw [readV_blit, if_neg h]

/-- Every pixel is inverted twice or not at all. -/
theorem fbRead_blit_blit (nd : ps.Nodup) (p : Pixel) :
    fbRead (blit ps (blit ps s)).fb p = fbRead s.fb p := by
  by_cases h : p ∈ ps
  · rw [fbRead_blit_of_mem nd h, fbRead_blit_of_mem nd h, Bool.not_not]
  · rw [fbRead_blit_of_notMem nd h, fbRead_blit_of_notMem nd h]

/-- The second blit meets a set pixel where the first met a clear one. -/
theorem readV_vf_blit_blit_eq_one_iff (nd : ps.Nodup) :
    readV (blit ps (blit ps s)) vf = 1 ↔ ∃ p ∈ ps, fbRead s.fb p = false := by
  rw [readV_vf_blit_eq_one_iff nd]
  refine exists_congr fun p => and_congr_right fun h => ?_
  rw [fbRead_blit_of_mem nd h, Bool.not_eq_true']

/-! ## DRW (R141, R145) -/

/-- The pixels under the set bits of the sprite that DRW Vx, Vy, n draws in a state. -/
def sprite (s : State) (x y n : Nibble) : List Pixel :=
  spritePixels s.mem s.i.toNat (readV s x) (readV s y) n.toNat

theorem mem_sprite_iff : p ∈ sprite s x y n ↔ CoveredBy s x y n p := by
  simp only [sprite, mem_spritePixels, eq_pixelAt_iff, spriteBit, CoveredBy, Covers]

theorem sprite_nodup (s : State) (x y n : Nibble) : (sprite s x y n).Nodup :=
  aSpriteNeverTogglesAPixelTwice _ _ _ _ n

/-- A draw writes none of what the same sprite is read from, unless a coordinate is in VF. -/
theorem sprite_blit (hx : x ≠ vf) (hy : y ≠ vf) : sprite (blit ps s) x y n = sprite s x y n := by
  rw [sprite, readV_blit_of_ne hx, readV_blit_of_ne hy, blit_mem, blit_i, sprite]

theorem exec_drw_inside (inside : n.toNat = 0 ∨ s.i.toNat + n.toNat - 1 ≤ 4095) :
    exec (.drw x y n) s = .next (blit (sprite s x y n) s) := by
  obtain ⟨outside, -⟩ | ⟨-, draws⟩ := execDrw_cases x y n s
  · have past := mt spriteInMemory_iff.mpr (Bool.eq_false_iff.mp outside)
    omega
  · exact draws

/-- A DRW that leaves no fault draws its sprite, on a core without a fault. -/
theorem exec_drw_sound (h : exec (.drw x y n) s = .next t) (sound : t.fault = none) :
    s.fault = none ∧ t = blit (sprite s x y n) s := by
  obtain ⟨-, e⟩ | ⟨-, e⟩ := execDrw_cases x y n s <;> cases e.symm.trans h
  · cases sound
  · exact ⟨sound, rfl⟩

theorem encodes_drw : Encodes 0xF000#16 0xD000#16 fun op => .drw (xOf op) (yOf op) (nOf op) :=
  encodes_family (by decide) fun op h => by rw [decodeFamily, h]; rfl

/-- Settles O41: DRW is the blit of the covered pixels, which are all different. -/
theorem drawInvertsTheCoveredPixels : Obligations.DrawInvertsTheCoveredPixels := by
  refine ⟨encodes_drw, fun x y n s inside => ⟨_, exec_drw_inside inside, ?_⟩⟩
  have nd := sprite_nodup s x y n
  simp only [← mem_sprite_iff]
  exact ⟨fun _ => fbRead_blit_of_mem nd, fun _ => fbRead_blit_of_notMem nd,
    (readV_vf_blit_eq_one_iff nd).mpr, readV_vf_blit_eq_zero nd, rfl, fun _ => readV_blit_of_ne,
    frame_blit s _⟩

/-- Settles O44: the second draw raised no fault, so neither did the first, and both blit the same pixels. -/
theorem drawingTwiceRestoresTheScreen : Obligations.DrawingTwiceRestoresTheScreen := by
  intro x y n s t u hx hy _ first second sound
  obtain ⟨sound, rfl⟩ := exec_drw_sound second sound
  obtain ⟨-, rfl⟩ := exec_drw_sound first sound
  have nd := sprite_nodup s x y n
  simp only [sprite_blit hx hy, ← mem_sprite_iff]
  exact ⟨fbRead_blit_blit nd, readV_vf_blit_blit_eq_one_iff nd⟩

end Sys2Proof.Machine
end

section
/-!
PROOFS of the statements about the cycle and the host's operations (50_cycle_and_host.md): FETCH, EXECUTE and
TICK one by one and on a halted core; `pc` through a TICK; LOAD and POKE; the word placed at `pc`; the reads.
-/

namespace Sys2Proof.Machine

variable {s t : State} {i : Instr} {a b : Nat} {image : List Byte}

/-! ## FETCH (R171, R52, D7) -/

/-- A halted core does not fetch (R183). -/
theorem fetch_halted (halt : s.fault ≠ none) : fetch s = .next s :=
  if_pos (halted_eq_true.mpr halt)

/-- The byte at the lower address is the more significant one (R52). -/
theorem wordOfBytes_toNat (hi lo : Byte) : (wordOfBytes hi lo).toNat = 256 * hi.toNat + lo.toNat := by
  rw [wordOfBytes, BitVec.toNat_append, Nat.mul_comm, ← Nat.shiftLeft_add_eq_or_of_lt lo.isLt,
    Nat.shiftLeft_eq]

/-- The host gets no opcode from a FETCH that leaves the core halted. -/
theorem hostOp_fetch_of_halted (h : fetch s = .next t) (halt : t.fault ≠ none) :
    hostOp .fetch s = .next (t, .nothing) :=
  hostFetch_eq_next.mpr ⟨h, (if_pos (halted_eq_true.mpr halt)).symm⟩

theorem hostOp_fetch_ready (ready : Ready s) : hostOp .fetch s = .next (fetched s, .opcode (wordAtPc s)) := by
  refine hostFetch_eq_next.mpr ⟨fetch_ready ready, ?_⟩
  have run : halted (fetched s) = false := halted_eq_false.mpr ready.1
  rw [run]
  rfl

/-- Settles O6: clause by clause, a halted core, a FETCH that faults, and a core that can fetch. -/
theorem fetchLatchesTheBigEndianWord : Obligations.FetchLatchesTheBigEndianWord := by
  refine fun s => ⟨fun halt => ?_, fun run past => ?_, fun ready => ?_⟩
  · exact hostOp_fetch_of_halted (fetch_halted halt) halt
  · exact hostOp_fetch_of_halted (fetch_out_of_range run past) (by simp)
  · exact ⟨fetched s, wordAtPc s, hostOp_fetch_ready ready, wordOfBytes_toNat _ _, rfl,
      latchOpcode_toNat ready.2, frame_latchOpcode s⟩

/-! ## EXECUTE and TICK (R172, R173, D20) -/

/-- Every rule answers a next state: three of them in two ways, the others in one. -/
theorem exec_total (i : Instr) (s : State) : ∃ t, exec i s = .next t := by
  cases i with
  | ret => obtain ⟨-, e⟩ | ⟨-, e⟩ := execRet_cases s <;> exact ⟨_, e⟩
  | call nnn => obtain ⟨-, e⟩ | ⟨-, e⟩ := execCall_cases nnn s <;> exact ⟨_, e⟩
  | drw x y n => obtain ⟨-, e⟩ | ⟨-, e⟩ := execDrw_cases x y n s <;> exact ⟨_, e⟩
  | _ => exact ⟨_, rfl⟩

/-- None of the updates that the rules are made of writes the opcode latch or the timer. -/
theorem exec_ir_div_dt (h : exec i s = .next t) : t.ir = s.ir ∧ t.div = s.div ∧ t.dt = s.dt := by
  cases exec_effect h <;> exact ⟨rfl, rfl, rfl⟩

theorem settle_eq_ite (s : State) : settle s = if s.fault = none then timerStep s else s := by
  split
  · next run => exact settle_running run
  · next halt => exact settle_halted halt

theorem step_of_fetch (h : fetch s = .next t) : step s = execute t := by
  unfold step tick
  rw [h]

/-- Settles O7: a rule answers a next state, which EXECUTE settles. -/
theorem executeRunsTheLatchedWord : Obligations.ExecuteRunsTheLatchedWord := by
  refine ⟨fun s run => ?_, fun s t r fetches => ?_⟩
  · obtain ⟨t, ruled⟩ := exec_total (decode s.ir) s
    refine ⟨t, ruled, silently_eq_next.mpr ⟨?_, rfl⟩, exec_ir_div_dt ruled⟩
    rw [execute_running run, ruled, afterRule_next, settle_eq_ite]
  · exact congrArg silently (step_of_fetch (hostFetch_eq_next.mp fetches).1)

/-- Settles O5: the instruction that the two bytes decode to is `nextInstr`. -/
theorem stepRunsTheDecodedInstruction : Obligations.StepRunsTheDecodedInstruction := by
  intro s i ready decodes
  have found : nextInstr s = i := by cases decodes; rfl
  exact ⟨found ▸ step_ready ready, fun t => by rw [afterRule_next, settle_eq_ite]⟩

/-! ## `pc` through a TICK (R185) -/

/-- FETCH leaves the registers. -/
@[simp] theorem readV_fetched (s : State) (x : Nibble) : readV (fetched s) x = readV s x := rfl

/-- `pc` after a skip that has just been fetched. -/
theorem skipIf_fetched_pc {c : Bool} (inside : s.pc.toNat ≤ 4094) (h : skipIf c (fetched s) = .next t) :
    t.pc.toNat = if c then s.pc.toNat + 4 else s.pc.toNat + 2 := by
  have moved : (fetched s).pc.toNat = s.pc.toNat + 2 := latchOpcode_toNat inside
  cases c with
  | false => cases h; exact moved
  | true => cases h; exact (advancePc_toNat (by omega)).trans (congrArg (· + 2) moved)

/-- The rule of an instruction in the state that FETCH leaves, where it raises no fault. Only the rules of
control transfer and RET write `pc`. -/
theorem exec_fetched_pc (inside : s.pc.toNat ≤ 4094) (h : exec i (fetched s) = .next t)
    (sound : t.fault = none) : t.pc.toNat = pcAfterTick i s := by
  have moved : (fetched s).pc.toNat = s.pc.toNat + 2 := latchOpcode_toNat inside
  cases i with
  | jp nnn => cases h; exact zextAddr_toNat nnn
  | call nnn =>
    obtain ⟨-, e⟩ | ⟨-, e⟩ := execCall_cases nnn (fetched s) <;> cases e.symm.trans h
    · cases sound
    · exact zextAddr_toNat nnn
  | ret =>
    obtain ⟨-, e⟩ | ⟨-, e⟩ := execRet_cases (fetched s) <;> cases e.symm.trans h
    · cases sound
    · rfl
  | seImm | seReg | sneImm | sneReg => simpa [pcAfterTick] using skipIf_fetched_pc inside h
  | _ =>
    have kept : t.pc = (fetched s).pc := exec_agree (p := .pc) h rfl
    rw [kept, moved]
    rfl

/-- Settles O11: a TICK without a fault is the rule in the state that FETCH leaves, and the timer step leaves
`pc`. -/
theorem pcThroughATick : Obligations.PcThroughATick := by
  intro s t run h sound
  obtain ⟨halt, -⟩ | ⟨-, -, rfl⟩ | ⟨⟨-, inside⟩, u, ruled, rfl⟩ := step_cases h
  · exact absurd run halt
  · cases sound
  · rw [settle_fault] at sound
    rw [settle_running sound, timerStep_pc]
    exact exec_fetched_pc inside ruled sound

/-! ## LOAD (R175, R35) -/

theorem hostOp_load (fits : image.length ≤ 3584) (s : State) :
    hostOp (.load image) s = .next (loaded s.depth image, .nothing) :=
  if_pos fits

/-- The image lies at PROG_BASE. -/
theorem readByte_loaded_inside (depth : Option Nat) {k : Nat} (inside : k < image.length) :
    readByte (loaded depth image).mem (0x200 + k) = image.getD k 0 := by
  have within : Config.progBase ≤ 0x200 + k ∧ 0x200 + k < Config.progBase + image.length := by
    simp only [Config.progBase]; omega
  rw [loaded, readByte_writeBytes, if_pos within, Nat.add_sub_cancel_left]

/-- Settles O45: the image where LOAD copied it, and the reset state everywhere else. -/
theorem loadResetsEverythingAndCopiesTheImage : Obligations.LoadResetsEverythingAndCopiesTheImage := by
  refine fun image s => ⟨fun long => if_neg (Nat.not_le.mpr long), fun fits =>
    ⟨loaded s.depth image, hostOp_load fits s, fun _ => readByte_loaded_inside s.depth,
      fun _ => readByte_loaded_outside s.depth, fun r => readV_resetAt r s.depth, ?_⟩⟩
  exact ⟨rfl, rfl, rfl, reset_stack_cell s.depth, rfl, fbRead_blank, rfl, rfl, rfl, rfl, rfl⟩

/-! ## POKE (R180, D16) -/

theorem frame_setMem (s : State) (m : Memory) : Frame [.mem] s { s with mem := m } := by
  simp [frame_iff, agree, readV]

/-- The state after a POKE that is not refused. -/
def poked (a b : Nat) (s : State) : State := { s with mem := writeByte s.mem a (BitVec.ofNat 8 b) }

theorem hostOp_poke (ha : a ≤ 4095) (hb : b ≤ 255) (s : State) :
    hostOp (.poke a b) s = .next (poked a b s, .nothing) :=
  hostPoke_eq_next.mpr ⟨Nat.lt_succ_of_le ha, Nat.lt_succ_of_le hb, rfl, rfl⟩

theorem readByte_poked (hb : b ≤ 255) (s : State) : (readByte (poked a b s).mem a).toNat = b := by
  rw [poked, readByte_writeByte, if_pos rfl, BitVec.toNat_ofNat, Nat.mod_eq_of_lt (Nat.lt_succ_of_le hb)]

theorem readByte_poked_of_ne {c : Nat} (other : c ≠ a) (s : State) :
    readByte (poked a b s).mem c = readByte s.mem c := by
  rw [poked, readByte_writeByte, if_neg other]

theorem hostOp_poke_refused (outside : 4095 < a ∨ 255 < b) (s : State) :
    ∃ e, hostOp (.poke a b) s = .refused e := by
  by_cases ha : a < Config.memSize
  · have hb : ¬ b < 256 := by simp only [Config.memSize] at ha; omega
    exact ⟨_, (if_pos ha).trans (if_neg hb)⟩
  · exact ⟨_, if_neg ha⟩

/-- Settles O47: the one cell of `poked`, or a refusal. -/
theorem pokeWritesOneCell : Obligations.PokeWritesOneCell :=
  fun a b s =>
    ⟨fun ha hb => ⟨poked a b s, hostOp_poke ha hb s, readByte_poked hb s,
      fun _ other => readByte_poked_of_ne other s, frame_setMem s _⟩,
    fun outside => hostOp_poke_refused outside s⟩

/-! ## A halted core (R183, D6) -/

/-- Settles O8: FETCH and EXECUTE look at the latch first; CLEAR_DIRTY, POKE and LOAD do not look at it. -/
theorem haltedCoreChangesOnlyByTheHost : Obligations.HaltedCoreChangesOnlyByTheHost := by
  intro s halt
  have idle := execute_halted halt
  refine ⟨(step_of_fetch (fetch_halted halt)).trans idle, idle, fetch_halted halt, rfl, ?_, ?_⟩
  · exact fun a b ha hb => ⟨poked a b s, hostOp_poke ha hb s, readByte_poked hb s, rfl⟩
  · exact fun image fits => ⟨loaded s.depth image, hostOp_load fits s, rfl⟩

/-! ## A word placed by `withFetchWord` (log 7) -/

/-- The word of the 16 bits of a number. -/
theorem ofNat_mod_word (w : Nat) : BitVec.ofNat 16 (w % 2 ^ 16) = BitVec.ofNat 16 w :=
  BitVec.eq_of_toNat_eq (by simp)

theorem withFetchWord_eq (s : State) (w : Nat) : s.withFetchWord 16 w = placeWord s (BitVec.ofNat 16 w) := by
  rw [State.withFetchWord, ofNat_mod_word]

theorem decodeTableWord_eq (w : Nat) : decodeTableWord 16 w = some (decode (BitVec.ofNat 16 w)) := by
  rw [decodeTableWord, ofNat_mod_word, decodeBytes, wordOfBytes_bytes]

/-- Settles O52: on a core that can fetch, placing the word writes its two bytes at `pc` and `pc + 1`. -/
theorem aPlacedWordIsTheNextInstruction : Obligations.APlacedWordIsTheNextInstruction := by
  intro s w ready
  rw [withFetchWord_eq, nextInstr, wordAtPc_placeWord ready, placeWord_ready ready]
  refine ⟨rfl, decodeTableWord_eq w, frame_setMem s _, fun a high low => ?_⟩
  rw [readByte_writeByte, if_neg low, readByte_writeByte, if_neg high]

/-! ## The other operations of the host (R176 to R179, R181, D22, D24) -/

theorem frame_setDirty (s : State) (dirty : Bool) : Frame [.dirty] s { s with dirty := dirty } := by
  simp [frame_iff, agree, readV]

/-- Settles O48: three arms of `hostOp`, the last of which sets one field. -/
theorem dirtyFlagAndTimerOperations : Obligations.DirtyFlagAndTimerOperations :=
  fun s => ⟨rfl, rfl, { s with dirty := false }, rfl, rfl, frame_setDirty s false⟩

theorem hostOp_readPixel_inside {px py : Nat} (hx : px < 64) (hy : py < 32) (s : State) :
    hostOp (.readPixel px py) s = .next (s, .bit (fbRead s.fb (⟨px, hx⟩, ⟨py, hy⟩))) :=
  (dif_pos hx).trans (dif_pos hy)

theorem hostOp_readPixel_outside {px py : Nat} (outside : 64 ≤ px ∨ 32 ≤ py) (s : State) :
    hostOp (.readPixel px py) s = .refused .pixelOutsideGrid := by
  by_cases hx : px < 64
  · exact (dif_pos hx).trans (dif_neg (by omega))
  · exact dif_neg hx

/-- Settles O49: READ_PIXEL by its range, READ_FAULT by the fault in the latch. -/
theorem pixelAndFaultReads : Obligations.PixelAndFaultReads :=
  fun s _ _ =>
    ⟨fun hx hy => hostOp_readPixel_inside hx hy s, fun outside => hostOp_readPixel_outside outside s,
    faultCode s.fault, rfl, by simp +contextual [faultCode]⟩

end Sys2Proof.Machine
end

section
/-!
PROOFS of the statements about the faults and the timer (60_exceptions.md): the timer step as numbers, iterated
and inside a TICK; the rule of an instruction whose fault condition holds, for every TICK and for DRW.
-/

namespace Sys2Proof.Machine

variable {s t : State} {i : Instr} {f : Fault} {x y n : Nibble}

/-! ## The timer step as numbers (R213) -/

theorem timerStep_div_toNat (s : State) : (timerStep s).div.toNat = (s.div.toNat + 1) % 16 := by
  rw [timerStep_div, BitVec.toNat_add]
  rfl

/-- Truncated subtraction is the floor of `DT` at 0. -/
theorem timerStep_dt_toNat (s : State) :
    (timerStep s).dt.toNat = if s.div.toNat = 15 then s.dt.toNat - 1 else s.dt.toNat := by
  have fifteen : s.div = 15 ↔ s.div.toNat = 15 := BitVec.toNat_inj.symm
  simp only [timerStep_dt, fifteen]
  by_cases wraps : s.div.toNat = 15
  · by_cases zero : s.dt = 0
    · simp [zero]
    · rw [if_pos ⟨wraps, zero⟩, if_pos wraps]
      bv_omega
  · rw [if_neg (fun h => wraps h.1), if_neg wraps]

/-- Settles O13, by induction on the number of timer steps: `DT` loses 1 at the step at which `DIV` wraps. -/
theorem timerClosedForm : Obligations.TimerClosedForm := by
  intro k s
  induction k with
  | zero =>
    have small : s.div.toNat < 16 := s.div.isLt
    rw [Function.iterate_zero_apply]
    exact ⟨by omega, by omega, frame_refl _ s⟩
  | succ k ih =>
    obtain ⟨div, dt, frame⟩ := ih
    rw [Function.iterate_succ_apply', timerStep_div_toNat, timerStep_dt_toNat, div, dt]
    refine ⟨by omega, ?_, (frame.trans (frame_timerStep _)).mono (by simp)⟩
    split <;> omega

/-! ## The timer step in a TICK (R172, D5, D20) -/

/-- Settles O12: FETCH and the rule leave the timer, which EXECUTE then steps unless a fault was raised. -/
theorem tickStepsTheTimerOnce : Obligations.TickStepsTheTimerOnce := by
  intro s t h
  obtain ⟨halt, rfl⟩ | ⟨-, -, rfl⟩ | ⟨-, u, ruled, rfl⟩ := step_cases h
  · exact ⟨fun sound => absurd sound halt, fun _ => ⟨rfl, rfl⟩⟩
  · exact ⟨fun sound => (nomatch sound), fun _ => ⟨rfl, rfl⟩⟩
  · obtain ⟨-, div, dt⟩ := exec_ir_div_dt ruled
    rw [latchOpcode_div] at div
    rw [latchOpcode_dt] at dt
    rw [settle_fault, ← div, ← dt]
    refine ⟨fun sound => ?_, fun halt => ?_⟩
    · rw [settle_running sound]
      exact ⟨timerStep_div_toNat u, timerStep_dt_toNat u⟩
    · rw [settle_halted halt]
      exact ⟨rfl, rfl⟩

/-! ## The rule of an instruction that faults (R202 to R204, R208) -/

/-- DRW of a sprite that does not lie inside memory (R202, D8). -/
theorem exec_drw_outside (someRow : 0 < n.toNat) (past : 4095 < s.i.toNat + n.toNat - 1) :
    exec (.drw x y n) s = .next { s with fault := some .indexRange } := by
  obtain ⟨-, faults⟩ | ⟨inside, -⟩ := execDrw_cases x y n s
  · exact faults
  · have := spriteInMemory_iff.mp inside
    omega

/-- Where R200 has a fault for an instruction, its rule raises that fault and does nothing else: with
`exec_faults`, the table of R200 is exact. -/
theorem exec_of_faults (h : Faults i s f) : exec i s = .next { s with fault := some f } := by
  obtain ⟨rfl, empty, rfl⟩ | ⟨nnn, rfl, full, rfl⟩ | ⟨x, y, n, rfl, someRow, past, rfl⟩ := h
  · exact if_pos empty
  · exact if_pos ((stackFull_iff s).mpr full)
  · exact exec_drw_outside someRow past

/-- FETCH writes none of what the conditions of R200 read. -/
theorem faults_fetched : Faults i (fetched s) f ↔ Faults i s f := Iff.rfl

/-- A TICK of an instruction that faults: what FETCH did, and the fault. -/
theorem step_of_faults (ready : Ready s) (h : Faults (nextInstr s) s f) :
    step s = .next { fetched s with fault := some f } := by
  rw [step_ready ready, exec_of_faults (faults_fetched.mpr h), afterRule_next, settle_halted (by simp)]

/-- A TICK that reaches EXECUTE leaves no fault but one of its instruction. -/
theorem faults_of_step (ready : Ready s) (h : step s = .next t) (hf : t.fault = some f) :
    Faults (nextInstr s) s f := by
  rw [step_ready ready] at h
  obtain ⟨u, ruled, rfl⟩ := afterRule_eq_next.mp h
  exact faults_fetched.mp (exec_faults ruled ready.1 ((settle_fault u).symm.trans hf))

/-- Settles O10: the TICK faults in FETCH, or by the rule of the fetched instruction, or not at all. -/
theorem faultsAreExactAndPrecise : Obligations.FaultsAreExactAndPrecise := by
  refine fun s t _ run h => ⟨fun past => ?_, fun inside => ⟨fun f faults => ?_, fun clear => ?_⟩⟩
  · have halts := step_of_fetch (fetch_out_of_range run past)
    rw [execute_halted (by simp)] at halts
    cases h.symm.trans halts
    rfl
  · cases h.symm.trans (step_of_faults ⟨run, inside⟩ faults)
    rfl
  · exact Option.eq_none_iff_forall_ne_some.mpr fun f hf =>
      clear f (faults_of_step ⟨run, inside⟩ h hf)

/-! ## DRW past the end of memory (R202, D8) -/

/-- The condition under which a DRW leaves a fault on a core that had none. -/
theorem past_of_exec_drw (run : s.fault = none) (h : exec (.drw x y n) s = .next t) (halt : t.fault ≠ none) :
    4095 < s.i.toNat + n.toNat - 1 := by
  by_contra inside
  rw [exec_drw_inside (.inr (Nat.le_of_not_lt inside))] at h
  cases h
  exact halt run

/-- Settles O42: the bounds on `I` follow from n being at most 15. -/
theorem drawPastTheEndOfMemoryFaults : Obligations.DrawPastTheEndOfMemoryFaults := by
  refine ⟨fun x y n s => exec_drw_outside, fun x y n s t run h halt => ?_, fun x y n s last rows => ?_⟩
  · have past := past_of_exec_drw run h halt
    have rows : n.toNat < 16 := n.isLt
    omega
  · exact exec_drw_outside (by omega) (by omega)

end Sys2Proof.Machine
end

section
/-!
PROOFS of the statements about reset and hazards (70_reset_and_hazards.md): every TICK answers a next state, and
the first TICK after LOAD latches the first word of the image.
-/

namespace Sys2Proof.Machine

variable {s t : State}

/-! ## No TICK is refused (R173, R208, R237, D6) -/

/-- FETCH answers a next state in each of its three cases. -/
theorem fetch_total (s : State) : ∃ t, fetch s = .next t := by
  obtain ⟨-, e⟩ | ⟨-, -, e⟩ | ⟨-, -, e⟩ := fetch_cases s <;> exact ⟨_, e⟩

/-- EXECUTE does nothing on a halted core, and otherwise settles the state that the rule answers. -/
theorem execute_total (s : State) : ∃ t, execute s = .next t := by
  by_cases run : s.fault = none
  · obtain ⟨t, ruled⟩ := exec_total (decode s.ir) s
    exact ⟨settle t, by rw [execute_running run, ruled, afterRule_next]⟩
  · exact ⟨s, execute_halted run⟩

/-- Settles O9: FETCH answers a next state, and so does the EXECUTE that follows it. -/
theorem everyTickAnswersANextState : Obligations.EveryTickAnswersANextState := by
  intro s
  obtain ⟨u, fetches⟩ := fetch_total s
  obtain ⟨t, executes⟩ := execute_total u
  exact ⟨t, (step_of_fetch fetches).trans executes⟩

/-! ## The first TICK after LOAD (R175, R232) -/

/-- What EXECUTE adds after the rule leaves the opcode latch. -/
@[simp] theorem settle_ir (s : State) : (settle s).ir = s.ir := by
  by_cases run : s.fault = none
  · rw [settle_running run, timerStep_ir]
  · rw [settle_halted run]

/-- A TICK of a core that can fetch leaves the fetched word in `IR`, whether or not its rule faults. -/
theorem step_ir (ready : Ready s) (h : step s = .next t) : t.ir = wordAtPc s := by
  rw [step_ready ready] at h
  obtain ⟨u, ruled, rfl⟩ := afterRule_eq_next.mp h
  obtain ⟨ir, -, -⟩ := exec_ir_div_dt ruled
  exact (settle_ir u).trans ir

/-- Execution starts at PROG_BASE. -/
theorem loaded_pc_toNat (depth : Option Nat) (image : List Byte) : (loaded depth image).pc.toNat = 0x200 :=
  rfl

theorem ready_loaded (depth : Option Nat) (image : List Byte) : Ready (loaded depth image) :=
  ⟨rfl, by simp [loaded_pc_toNat]⟩

/-- `pc` and the image both start at PROG_BASE, so that the word at `pc` is the image's first two bytes. -/
theorem wordAtPc_loaded (depth : Option Nat) (hi lo : Byte) (rest : List Byte) :
    wordAtPc (loaded depth (hi :: lo :: rest)) = wordOfBytes hi lo := by
  have high := readByte_loaded_inside depth (image := hi :: lo :: rest) (k := 0) (by simp)
  have low := readByte_loaded_inside depth (image := hi :: lo :: rest) (k := 1) (by simp)
  rw [wordAtPc, loaded_pc_toNat, readWord, high, low]
  rfl

/-- Settles O51: a loaded core can fetch, and the word at its `pc` is the image's first. -/
theorem aLoadedProgramStartsAtItsFirstWord : Obligations.ALoadedProgramStartsAtItsFirstWord := by
  intro hi lo rest s t u _ loads ticks
  obtain ⟨-, rfl, -⟩ := hostLoad_eq_next.mp loads
  have word := wordAtPc_loaded s.depth hi lo rest
  exact ⟨(step_ir (ready_loaded _ _) ticks).trans word, congrArg decode word⟩

end Sys2Proof.Machine
end
